-- ==== Sys2Proof/Word.lean ====
section
/-! DEFINITION. The word types of the EDR: bytes, 16-bit fields, 32-bit registers, 48-bit transaction
descriptors (spec 00_scope.md R8, R9; 30_encoding.md R52). -/

namespace Sys2Proof

/-- A byte: a sample, an output byte, the partial byte SR, a register offset. -/
abbrev Byte := BitVec 8

/-- A 16-bit field or entry: W, H, LW, LH, X, Y, and one entry of a line buffer. -/
abbrev Half := BitVec 16

/-- A register word (R8: registers are 32 bits wide). -/
abbrev Word := BitVec 32

/-- A transaction descriptor (R52). -/
abbrev Td := BitVec 48

end Sys2Proof
end

