-- ==== Sys2Proof/Config.lean ====
section
/-! DEFINITION. The two parameters of a model of the EDR (spec 00_scope.md R8; 93_implementation_defined.md P1, P2).
The machine after reset takes them as opaque constants, so nothing proved of it can lean on a particular
value (log 1). -/

namespace Sys2Proof

/-- The parameters of R8, with their legal ranges. They are also what CAPS reads (10_state.md R26). -/
structure Params where
  /-- MAX_WIDTH, the largest image width. -/
  maxWidth : Nat
  /-- OFIFO_DEPTH, the capacity of the output FIFO in bytes. -/
  ofifoDepth : Nat
  maxWidth_ge : 384 ≤ maxWidth
  maxWidth_le : maxWidth ≤ 65535
  ofifoDepth_ge : 8 ≤ ofifoDepth
  ofifoDepth_le : ofifoDepth ≤ 255
  deriving DecidableEq, Repr

/-- The implementation's MAX_WIDTH, as an unconstrained number that `Config.params` brings into R8's range. -/
opaque Config.rawMaxWidth : Nat

/-- The implementation's OFIFO_DEPTH, as an unconstrained number that `Config.params` brings into R8's range. -/
opaque Config.rawOfifoDepth : Nat

/-- The parameters of the machine `State.reset` describes: any legal pair, and nothing says which (R8). -/
def Config.params : Params where
  maxWidth := 384 + Config.rawMaxWidth % 65152
  ofifoDepth := 8 + Config.rawOfifoDepth % 248
  maxWidth_ge := Nat.le_add_right _ _
  maxWidth_le := by have := Nat.mod_lt Config.rawMaxWidth (show 65152 > 0 by decide); omega
  ofifoDepth_ge := Nat.le_add_right _ _
  ofifoDepth_le := by have := Nat.mod_lt Config.rawOfifoDepth (show 248 > 0 by decide); omega

end Sys2Proof
end

