-- ==== Sys2Proof/Syntax.lean ====
section
/-! DEFINITION. The 30 transactions of spec/opcode_table.json (30_encoding.md R59), one constructor each, with
their operands (R57). -/

namespace Sys2Proof

/-- One host transaction. `v` is the write data, `o` a register offset, `s` a sample (R57). -/
inductive Instr where
  /-- R65 -/
  | rdCtrl
  /-- R66 -/
  | rdWidth
  /-- R67 -/
  | rdHeight
  /-- R68 -/
  | rdThreshold
  /-- R69 -/
  | rdPrefix
  /-- R70 -/
  | rdIrqEn
  /-- R71 -/
  | rdCmd
  /-- R72 -/
  | rdStatus
  /-- R73 -/
  | rdErr
  /-- R74 -/
  | rdPos
  /-- R75 -/
  | rdCaps
  /-- R76 -/
  | rdUnmapped (o : Byte)
  /-- R78 -/
  | wrCtrl (v : Word)
  /-- R79 -/
  | wrWidth (v : Word)
  /-- R80 -/
  | wrHeight (v : Word)
  /-- R81 -/
  | wrThreshold (v : Word)
  /-- R82 -/
  | wrPrefix (v : Word)
  /-- R83 -/
  | wrIrqEn (v : Word)
  /-- R84 -/
  | wrStatus (v : Word)
  /-- R85 -/
  | wrErr (v : Word)
  /-- R86 -/
  | wrPos (v : Word)
  /-- R87 -/
  | wrCaps (v : Word)
  /-- R88 -/
  | wrUnmapped (o : Byte) (v : Word)
  /-- R89 -/
  | cmdNop
  /-- R91 -/
  | cmdStart
  /-- R92 -/
  | cmdAbort
  /-- R93 -/
  | cmdClear
  /-- R94 -/
  | cmdReserved (v : Word)
  /-- R96 -/
  | pixPush (s : Byte)
  /-- R117 -/
  | outPop
  deriving DecidableEq, Repr

end Sys2Proof
end

