-- ==== Sys2Proof/WellFormed.lean ====
section
/-! DEFINITION. Which terms of `Instr` are transactions: the catch-all rows take only what no exact row takes
(30_encoding.md R55, R56, R59). -/

namespace Sys2Proof

/-- A mapped OFFSET has bits 1:0 equal to 0 and is at most 0x28 (R55). -/
abbrev Mapped (o : Byte) : Prop := o.extractLsb' 0 2 = 0#2 ∧ o.toNat ≤ 0x28

/-- A CMD value of R56's table: NOP 0, START 1, ABORT 2, CLEAR 3. -/
abbrev CommandCode (v : Word) : Prop := v.toNat ≤ 3

/-- A term that stands for a transaction: the catch-all rows hold an unmapped offset or a reserved command value
(R59, R76, R88, R94); every other operand may be anything. -/
abbrev Instr.Wf (i : Instr) : Prop :=
  match i with
  | .rdUnmapped o => ¬ Mapped o
  | .wrUnmapped o _ => ¬ Mapped o
  | .cmdReserved v => ¬ CommandCode v
  | .rdCtrl | .rdWidth | .rdHeight | .rdThreshold | .rdPrefix | .rdIrqEn | .rdCmd | .rdStatus | .rdErr | .rdPos
  | .rdCaps | .wrCtrl _ | .wrWidth _ | .wrHeight _ | .wrThreshold _ | .wrPrefix _ | .wrIrqEn _ | .wrStatus _
  | .wrErr _ | .wrPos _ | .wrCaps _ | .cmdNop | .cmdStart | .cmdAbort | .cmdClear | .pixPush _ | .outPop => True

end Sys2Proof
end

