-- ==== Sys2Proof/Decode.lean ====
section
/-! DEFINITION. Decoding a transaction descriptor and encoding a transaction (30_encoding.md R52 to R59, R61).
Decoding is total; a reserved TD is refused by name (R54). -/

namespace Sys2Proof

/-- Why a TD is reserved: the cases of R54, raised by `decode` and refused by `step` (safe: no state changes). -/
inductive Reserved where
  /-- PORT = 11 -/
  | portReserved
  /-- RSV ≠ 0 -/
  | rsvNonzero
  /-- a register read with DATA ≠ 0 -/
  | readWithData
  /-- a pixel push with DIR = 0 -/
  | pushDirRead
  /-- a pixel push with OFFSET ≠ 0 -/
  | pushOffset
  /-- a pixel push with DATA[31:8] ≠ 0 -/
  | pushWideData
  /-- an output pop with DIR = 1 -/
  | popDirWrite
  /-- an output pop with OFFSET ≠ 0 -/
  | popOffset
  /-- an output pop with DATA ≠ 0 -/
  | popWithData
  deriving DecidableEq, Repr

/-- PORT, bits 47:46 (R52). -/
def tdPort (td : Td) : BitVec 2 := td.extractLsb' 46 2

/-- DIR, bit 45 (R52). -/
def tdDir (td : Td) : BitVec 1 := td.extractLsb' 45 1

/-- RSV, bits 44:40 (R52). -/
def tdRsv (td : Td) : BitVec 5 := td.extractLsb' 40 5

/-- OFFSET, bits 39:32 (R52). -/
def tdOffset (td : Td) : Byte := td.extractLsb' 32 8

/-- DATA, bits 31:0 (R52). -/
def tdData (td : Td) : Word := td.extractLsb' 0 32

/-- A register read at an offset (R55, R59). -/
def decodeRead (o : Byte) : Instr :=
  if o = 0x00#8 then .rdCtrl
  else if o = 0x04#8 then .rdWidth
  else if o = 0x08#8 then .rdHeight
  else if o = 0x0C#8 then .rdThreshold
  else if o = 0x10#8 then .rdPrefix
  else if o = 0x14#8 then .rdIrqEn
  else if o = 0x18#8 then .rdCmd
  else if o = 0x1C#8 then .rdStatus
  else if o = 0x20#8 then .rdErr
  else if o = 0x24#8 then .rdPos
  else if o = 0x28#8 then .rdCaps
  else .rdUnmapped o

/-- A write to CMD, decoded on all 32 bits of DATA (R56). -/
def decodeCommand (v : Word) : Instr :=
  if v = 0#32 then .cmdNop
  else if v = 1#32 then .cmdStart
  else if v = 2#32 then .cmdAbort
  else if v = 3#32 then .cmdClear
  else .cmdReserved v

/-- A register write at an offset (R55, R59). -/
def decodeWrite (o : Byte) (v : Word) : Instr :=
  if o = 0x00#8 then .wrCtrl v
  else if o = 0x04#8 then .wrWidth v
  else if o = 0x08#8 then .wrHeight v
  else if o = 0x0C#8 then .wrThreshold v
  else if o = 0x10#8 then .wrPrefix v
  else if o = 0x14#8 then .wrIrqEn v
  else if o = 0x18#8 then decodeCommand v
  else if o = 0x1C#8 then .wrStatus v
  else if o = 0x20#8 then .wrErr v
  else if o = 0x24#8 then .wrPos v
  else if o = 0x28#8 then .wrCaps v
  else .wrUnmapped o v

/-- The transaction a TD spells, or why it is reserved (R53, R54, R59). No state is consulted (R61). -/
def decode (td : Td) : Except Reserved Instr :=
  if tdPort td = 0b11#2 then .error .portReserved
  else if tdRsv td ≠ 0#5 then .error .rsvNonzero
  else if tdPort td = 0b00#2 then
    if tdDir td = 1#1 then .ok (decodeWrite (tdOffset td) (tdData td))
    else if tdData td ≠ 0#32 then .error .readWithData
    else .ok (decodeRead (tdOffset td))
  else if tdPort td = 0b01#2 then
    if tdDir td = 0#1 then .error .pushDirRead
    else if tdOffset td ≠ 0#8 then .error .pushOffset
    else if (tdData td).extractLsb' 8 24 ≠ 0#24 then .error .pushWideData
    else .ok (.pixPush ((tdData td).setWidth 8))
  else
    if tdDir td = 1#1 then .error .popDirWrite
    else if tdOffset td ≠ 0#8 then .error .popOffset
    else if tdData td ≠ 0#32 then .error .popWithData
    else .ok .outPop

/-- The TD with the given fields, RSV = 0 (R52). -/
def mkTd (port : BitVec 2) (dir : BitVec 1) (o : Byte) (v : Word) : Td := port ++ dir ++ 0#5 ++ o ++ v

/-- REG-READ (R53). -/
def encodeRead (o : Byte) : Td := mkTd 0b00#2 0#1 o 0#32

/-- REG-WRITE (R53). -/
def encodeWrite (o : Byte) (v : Word) : Td := mkTd 0b00#2 1#1 o v

/-- The TD of a transaction (R59). -/
def encode (i : Instr) : Td :=
  match i with
  | .rdCtrl => encodeRead 0x00#8
  | .rdWidth => encodeRead 0x04#8
  | .rdHeight => encodeRead 0x08#8
  | .rdThreshold => encodeRead 0x0C#8
  | .rdPrefix => encodeRead 0x10#8
  | .rdIrqEn => encodeRead 0x14#8
  | .rdCmd => encodeRead 0x18#8
  | .rdStatus => encodeRead 0x1C#8
  | .rdErr => encodeRead 0x20#8
  | .rdPos => encodeRead 0x24#8
  | .rdCaps => encodeRead 0x28#8
  | .rdUnmapped o => encodeRead o
  | .wrCtrl v => encodeWrite 0x00#8 v
  | .wrWidth v => encodeWrite 0x04#8 v
  | .wrHeight v => encodeWrite 0x08#8 v
  | .wrThreshold v => encodeWrite 0x0C#8 v
  | .wrPrefix v => encodeWrite 0x10#8 v
  | .wrIrqEn v => encodeWrite 0x14#8 v
  | .wrStatus v => encodeWrite 0x1C#8 v
  | .wrErr v => encodeWrite 0x20#8 v
  | .wrPos v => encodeWrite 0x24#8 v
  | .wrCaps v => encodeWrite 0x28#8 v
  | .wrUnmapped o v => encodeWrite o v
  | .cmdNop => encodeWrite 0x18#8 0#32
  | .cmdStart => encodeWrite 0x18#8 1#32
  | .cmdAbort => encodeWrite 0x18#8 2#32
  | .cmdClear => encodeWrite 0x18#8 3#32
  | .cmdReserved v => encodeWrite 0x18#8 v
  | .pixPush s => mkTd 0b01#2 1#1 0#8 (s.setWidth 32)
  | .outPop => mkTd 0b10#2 0#1 0#8 0#32

/-- The TD that a word of spec/opcode_table.json stands for: bit 0 of the table is bit 0 of the TD (R52), and
every bit above `nbits` is 0. -/
def tdOfTableWord (nbits w : Nat) : Td := BitVec.ofNat 48 (w % 2 ^ nbits)

/-- What the decoder reads from a word numbered as spec/opcode_table.json numbers it. -/
def decodeTableWord (nbits w : Nat) : Option Instr :=
  match decode (tdOfTableWord nbits w) with
  | .ok i => some i
  | .error _ => none

end Sys2Proof
end

