-- ==== Sys2Proof/Machine/State.lean ====
section
/-! DEFINITION. The state of the EDR as plain data (10_state.md R13), the reasons a step can stop, and the state
after reset (70_reset_and_hazards.md R133). -/

namespace Sys2Proof.Machine

/-- STATE, the sequencer (R27). The codes 5, 6 and 7 are never taken and cannot be written down
(93_implementation_defined.md U4). -/
inductive SeqState where
  | idle
  | run
  | drain
  | done
  | aborted
  deriving DecidableEq, Repr

/-- The error causes (60_exceptions.md R121). -/
inductive ErrCause where
  | badCmd
  | badWrite
  | badAddr
  | param
  | busy
  deriving DecidableEq, Repr

/-- A line buffer (R31): the entries that are not 0, by index, indexes rising. An index not listed holds 0 (log 8). -/
abbrev LineBuf := List (Nat × Half)

/-- What the outside does to the EDR, one at a time: the host issues a transaction (00_scope.md R3, R47), or RST is
pulsed (R133). The model's own type (log 3, log 7). -/
inductive Event where
  /-- The host offers the transaction this TD spells. -/
  | transaction (td : Td)
  /-- RST is asserted and released. -/
  | reset
  deriving DecidableEq, Repr

/-- The state. Fields `params` to `outFifo` are the items of R13; `events` and `ret` are the model's own and hold
the outside of the ports (log 3, log 4). -/
structure State where
  /-- The model's parameters, constant; CAPS reads them (R8, R26). -/
  params : Params
  /-- CTRL.DITHER (R16). -/
  ctrlDither : Bool
  /-- WIDTH.W (R17). -/
  widthW : Half
  /-- HEIGHT.H (R18). -/
  heightH : Half
  /-- THRESHOLD.T (R19). -/
  thresholdT : Byte
  /-- PREFIX (R20). -/
  prefixWord : Word
  /-- IRQ_EN.DONE_EN (R21). -/
  doneEn : Bool
  /-- IRQ_EN.ERR_EN (R21). -/
  errEn : Bool
  /-- ERR[4:0] (R24). -/
  err : BitVec 5
  /-- STATE (R27). -/
  seq : SeqState
  /-- LW (R28). -/
  lw : Half
  /-- LH (R28). -/
  lh : Half
  /-- LT (R28). -/
  lt : Byte
  /-- LD (R28). -/
  ld : Bool
  /-- X (R29). -/
  x : Half
  /-- Y (R29). -/
  y : Half
  /-- SR (R30). -/
  sr : Byte
  /-- CUR (R31). -/
  cur : LineBuf
  /-- NXT (R31). -/
  nxt : LineBuf
  /-- OF, head first (R32). -/
  outFifo : List Byte
  /-- What the outside does next, in order (R47). The model's own field. -/
  events : List Event
  /-- The return value of the transaction just taken (R52); none if it returns nothing. The model's own field. -/
  ret : Option Word
  deriving DecidableEq, Repr

/-- Why a step stops where the spec gives the host no step. None of them is an error of the EDR, which has no trap
(60_exceptions.md R120); the state stays as it is. -/
inductive Fault where
  /-- Raised by PIX_PUSH while IN_READY = 0: no transfer, the push waits (42_quantizer_dither.md R96;
  93_implementation_defined.md W1, `stuck`). Safe: the model stops where the hardware does nothing. -/
  | pushWaits
  /-- Raised by OUT_POP while OF is empty: no transfer, the pop waits (44_frame_output.md R117; W2, `stuck`). Safe. -/
  | popWaits
  /-- Raised by `step` when nothing is offered: the EDR takes no step of its own (00_scope.md R4). Safe. -/
  | noTransaction
  deriving DecidableEq, Repr

/-- Why a step gives no meaning to what is offered. -/
inductive Refusal where
  /-- Raised by an arm of `exec` for a transaction not modelled yet; no arm does. Safe. -/
  | notModelled (mnemonic : String)
  /-- Raised by `step` on a reserved TD, by the decoder's reason (30_encoding.md R54; 93 V1, `refuse`). Safe. -/
  | reservedTd (why : Reserved)
  deriving DecidableEq, Repr

/-- What a step or a meaning answers. -/
abbrev Result := Host.Outcome State Fault Refusal

/-- The state RST leaves, for given parameters (R133). LW, LH, LT, LD, SR, CUR and NXT are unspecified by R133 and
hold 0 here: DESIGN CHOICE, unsafe (log 2). Nothing is offered and nothing was returned: DESIGN CHOICE (log 3, log 4). -/
def State.resetWith (p : Params) : State where
  params := p
  ctrlDither := true
  widthW := 384#16
  heightH := 0#16
  thresholdT := 128#8
  prefixWord := 0x0030761D#32
  doneEn := false
  errEn := false
  err := 0#5
  seq := .idle
  lw := 0#16
  lh := 0#16
  lt := 0#8
  ld := false
  x := 0#16
  y := 0#16
  sr := 0#8
  cur := []
  nxt := []
  outFifo := []
  events := []
  ret := none

/-- The machine right after reset (R133), with the implementation's parameters, which nothing constrains beyond
R8 (log 1). -/
def State.reset : State := State.resetWith Config.params

end Sys2Proof.Machine
end

