-- ==== Sys2Proof/Machine/Flags.lean ====
section
/-! DEFINITION. The conditions and codes computed from the state: IN_READY, OUT_VALID, IRQ, the STATE and ERR codes,
and the STATUS, POS and CAPS words (10_state.md R23 to R27, R33; 60_exceptions.md R121, R125). -/

namespace Sys2Proof.Machine

/-- A condition as one bit. -/
def bit (b : Bool) : BitVec 1 := if b then 1#1 else 0#1

/-- The code of a sequencer state (R27). -/
def SeqState.code : SeqState → BitVec 3
  | .idle => 0#3
  | .run => 1#3
  | .drain => 2#3
  | .done => 3#3
  | .aborted => 4#3

/-- The cause code of an error is its bit number in ERR (R121). -/
def ErrCause.code : ErrCause → Nat
  | .badCmd => 0
  | .badWrite => 1
  | .badAddr => 2
  | .param => 3
  | .busy => 4

/-- The ERR word with only the cause's bit set (R24, R121). -/
def ErrCause.mask (e : ErrCause) : BitVec 5 := 1#5 <<< e.code

/-- IN_READY = (STATE = RUN) and (|OF| < OFIFO_DEPTH) (R33). -/
def State.inReady (s : State) : Bool := s.seq == .run && decide (s.outFifo.length < s.params.ofifoDepth)

/-- OUT_VALID = (|OF| > 0) (R33). -/
def State.outValid (s : State) : Bool := decide (s.outFifo.length > 0)

/-- The interrupt output (R125). It follows every change of ERR, that of a write to STATUS too (DEDUCED, log 18), and STATE
(DEDUCED, log 17). -/
def State.irq (s : State) : Bool := (s.doneEn && s.seq == .done) || (s.errEn && s.err != 0#5)

/-- A frame is active: STATE is RUN or DRAIN (41_commands.md R90). -/
def State.frameActive (s : State) : Bool := s.seq == .run || s.seq == .drain

/-- START's second precondition fails: W = 0, or W > MAX_WIDTH, or H = 0 (R90). -/
def State.startParamsBad (s : State) : Bool :=
  s.heightH == 0#16 || s.widthW == 0#16 || decide (s.params.maxWidth < s.widthW.toNat)

/-- The STATUS word (R23, 40_register_access.md R72). -/
def State.statusWord (s : State) : Word :=
  0#16 ++ BitVec.ofNat 8 s.outFifo.length ++ 0b00#2 ++ bit s.irq ++ bit s.outValid ++ bit s.inReady ++ s.seq.code

/-- The POS word, Y above X (R25). -/
def State.posWord (s : State) : Word := s.y ++ s.x

/-- The CAPS word: 0, OFIFO_DEPTH, MAX_WIDTH (R26). -/
def State.capsWord (s : State) : Word :=
  0#8 ++ BitVec.ofNat 8 s.params.ofifoDepth ++ BitVec.ofNat 16 s.params.maxWidth

/-- The IRQ_EN word (R21, 40_register_access.md R70). -/
def State.irqEnWord (s : State) : Word := (bit s.errEn ++ bit s.doneEn).setWidth 32

end Sys2Proof.Machine
end

