-- ==== Sys2Proof/Machine/Operands.lean ====
section
/-! DEFINITION. The operand forms of a transaction (30_encoding.md R57): the register write value, whose reserved
bits decide whether it is legal (40_register_access.md R77), and the sample. -/

namespace Sys2Proof.Machine

/-- v[31:1] = 0, CTRL's reserved bits (R78). -/
def ctrlLegal (v : Word) : Bool := v.extractLsb' 1 31 == 0#31

/-- v[31:16] = 0, the reserved bits of WIDTH and HEIGHT (R79, R80). -/
def halfLegal (v : Word) : Bool := v.extractLsb' 16 16 == 0#16

/-- v[31:8] = 0, THRESHOLD's reserved bits (R81). -/
def byteLegal (v : Word) : Bool := v.extractLsb' 8 24 == 0#24

/-- v[31:2] = 0, IRQ_EN's reserved bits (R83). -/
def irqEnLegal (v : Word) : Bool := v.extractLsb' 2 30 == 0#30

/-- The sample as an unsigned integer in 0..255 (R57). -/
def sampleValue (smp : Byte) : Int := smp.toNat

end Sys2Proof.Machine
end

