-- ==== Sys2Proof/Machine/Ops.lean ====
section
/-! DEFINITION. The operations the meanings share: answering, raising an ERR bit, the output FIFO, the line buffers,
the header, the quantizer, the diffusion kernel, the packer and the frame position. -/

namespace Sys2Proof.Machine

/-- The transaction's return value (30_encoding.md R52); none for one that returns nothing (log 4). -/
def State.answer (s : State) (r : Option Word) : State := { s with ret := r }

/-- `raise E`: set bit E of ERR; no other effect (00_scope.md R11, 60_exceptions.md R120). The EDR has no trap, so
this is all that taking an exception is. -/
def State.raise (s : State) (e : ErrCause) : State := { s with err := s.err ||| e.mask }

/-- A register write: performed if the value is legal, else rejected as a whole with BADWRITE (40_register_access.md
R77). `stored` is the state with the register written. -/
def State.writeIf (s : State) (legal : Bool) (stored : State) : State :=
  (if legal then stored else s.raise .badWrite).answer none

/-- A write to a read-only register: BADWRITE, always (R84 to R87). -/
def State.rejectWrite (s : State) : State := (s.raise .badWrite).answer none

/-- LE16(v): the low byte first (20_memory.md R36). -/
def le16 (v : Nat) : List Byte := [BitVec.ofNat 8 (v % 256), BitVec.ofNat 8 (v / 256)]

/-- BPL = ceil(w / 8) = (w + 7) >> 3 (43_packer.md R109). -/
def bytesPerLine (w : Nat) : Nat := (w + 7) / 8

/-- The 8 header bytes, in emission order: PREFIX lane 0 first, then LE16(BPL), then LE16(height)
(44_frame_output.md R116, 20_memory.md R37). -/
def headerBytes (p : Word) (w h : Nat) : List Byte :=
  [p.extractLsb' 0 8, p.extractLsb' 8 8, p.extractLsb' 16 8, p.extractLsb' 24 8] ++ le16 (bytesPerLine w) ++ le16 h

/-- FifoPush for a sequence of bytes: they enter OF at its tail, in order (R11, R32). -/
def State.fifoPush (s : State) (bs : List Byte) : State := { s with outFifo := s.outFifo ++ bs }

/-- HeaderLoad (R116): the header of the latched frame enters OF. -/
def State.headerLoad (s : State) : State := s.fifoPush (headerBytes s.prefixWord s.lw.toNat s.lh.toNat)

/-- Entry i of a line buffer (R31). -/
def lineGet : LineBuf → Nat → Half
  | [], _ => 0#16
  | (j, v) :: l, i => if i = j then v else lineGet l i

/-- Write entry i of a line buffer, keeping its canonical form (R31, log 8). -/
def lineSet : LineBuf → Nat → Half → LineBuf
  | [], i, v => if v = 0#16 then [] else [(i, v)]
  | (j, u) :: l, i, v =>
    if i < j then (if v = 0#16 then (j, u) :: l else (i, v) :: (j, u) :: l)
    else if i = j then (if v = 0#16 then l else (i, v) :: l)
    else (j, u) :: lineSet l i v

/-- The canonical form of a line buffer: indexes rise and no entry is 0 (log 8). -/
abbrev LineBuf.Wf (l : LineBuf) : Prop := l.Pairwise (fun a b => a.1 < b.1) ∧ ∀ e ∈ l, e.2 ≠ 0#16

/-- Add d to entry i, in 16-bit two's complement (R31, 42_quantizer_dither.md R104; no run overflows, R105, log 8). -/
def lineAdd (l : LineBuf) (i : Nat) (d : Int) : LineBuf := lineSet l i (BitVec.ofInt 16 ((lineGet l i).toInt + d))

/-- share(e, w) = sgn(e) * ((|e| * w) >> 4) (R102). -/
def share (e : Int) (w : Nat) : Int := (if e < 0 then -1 else 1) * ((e.natAbs * w / 16 : Nat) : Int)

/-- The corrected value c of the pixel at the frame position (R98). -/
def State.corrected (s : State) (smp : Byte) : Int :=
  if s.ld then sampleValue smp + (lineGet s.cur s.x.toNat).toInt else sampleValue smp

/-- Is the pixel black? s < LT when thresholding (R99), c < LT when dithering (R100). -/
def State.black (s : State) (smp : Byte) : Bool :=
  if s.ld then decide (s.corrected smp < (s.lt.toNat : Int)) else decide (sampleValue smp < (s.lt.toNat : Int))

/-- The quantization error of a dithered pixel: c - 0 if black, c - 255 if white (R101). -/
def quantError (c : Int) (black : Bool) : Int := c - (if black then 0 else 255)

/-- What Distribute does to CUR: the right share, weight 7 (R103, R104). -/
def diffuseCur (e : Int) (x lw : Nat) (cur : LineBuf) : LineBuf :=
  if x + 1 < lw then lineAdd cur (x + 1) (share e 7) else cur

/-- What Distribute does to NXT: below-left 3, below 5, below-right 1, unless this is the last row (R103, R104). -/
def diffuseNxt (e : Int) (x y lw lh : Nat) (nxt : LineBuf) : LineBuf :=
  if y + 1 < lh then
    let n₁ := if 1 ≤ x then lineAdd nxt (x - 1) (share e 3) else nxt
    let n₂ := lineAdd n₁ x (share e 5)
    if x + 1 < lw then lineAdd n₂ (x + 1) (share e 1) else n₂
  else nxt

/-- Distribute(e, X, Y) (R104). -/
def State.distribute (s : State) (e : Int) : State :=
  { s with
    cur := diffuseCur e s.x.toNat s.lw.toNat s.cur
    nxt := diffuseNxt e s.x.toNat s.y.toNat s.lw.toNat s.lh.toNat s.nxt }

/-- The quantizer's effect on the line buffers: none when thresholding (R99), Distribute when dithering (R96). -/
def State.diffuse (s : State) (smp : Byte) : State :=
  if s.ld then s.distribute (quantError (s.corrected smp) (s.black smp)) else s

/-- Write bit k of a byte. -/
def putBit (r : Byte) (k : Nat) (b : Bool) : Byte := if b then r ||| (1#8 <<< k) else r &&& ~~~(1#8 <<< k)

/-- PackBit(black, X) (43_packer.md R110). -/
def State.packBit (s : State) (black : Bool) : State := { s with sr := putBit s.sr (7 - s.x.toNat % 8) black }

/-- The packer emits the byte when the pixel ends a byte or ends a row (R111). -/
def State.emitByte (s : State) : State :=
  if s.x.toNat % 8 = 7 ∨ s.x.toNat + 1 = s.lw.toNat then { s.fifoPush [s.sr] with sr := 0#8 } else s

/-- Advance() (42_quantizer_dither.md R106). X and Y are compared as integers and stored in 16 bits (log 9). -/
def State.advance (s : State) : State :=
  if s.x.toNat + 1 = s.lw.toNat then
    { s with
      x := 0#16
      y := BitVec.ofNat 16 (s.y.toNat + 1)
      cur := s.nxt
      nxt := []
      seq := if s.y.toNat + 1 = s.lh.toNat then .drain else s.seq }
  else { s with x := BitVec.ofNat 16 (s.x.toNat + 1) }

/-- What a pixel push that is taken does: quantize, diffuse, pack, emit, advance (R96). -/
def State.acceptSample (s : State) (smp : Byte) : State :=
  (((s.diffuse smp).packBit (s.black smp)).emitByte).advance

/-- What a START that is performed does (41_commands.md R91). -/
def State.startFrame (s : State) : State :=
  { ({ s with
        lw := s.widthW
        lh := s.heightH
        lt := s.thresholdT
        ld := s.ctrlDither
        x := 0#16
        y := 0#16
        sr := 0#8
        cur := []
        nxt := []
        outFifo := [] }).headerLoad with
    seq := .run }

/-- CLEAR takes DONE and ABORTED to IDLE and leaves the other states (R93). -/
def SeqState.afterClear : SeqState → SeqState
  | .idle => .idle
  | .run => .run
  | .drain => .drain
  | .done => .idle
  | .aborted => .idle

/-- A pop that leaves OF with `rest` takes DRAIN to DONE when `rest` is empty, and changes STATE in no other case
(44_frame_output.md R117). -/
def SeqState.afterPop (q : SeqState) (rest : List Byte) : SeqState :=
  if q = SeqState.drain ∧ rest = [] then SeqState.done else q

/-- What an ABORT of an active frame does (R92). -/
def State.abandonFrame (s : State) : State := { s with outFifo := [], sr := 0#8, seq := .aborted }

/-- What CLEAR does (R93). -/
def State.clear (s : State) : State := { s with err := 0#5, seq := s.seq.afterClear }

/-- What a pop that leaves OF with `rest` does (44_frame_output.md R117). -/
def State.popTo (s : State) (rest : List Byte) : State := { s with outFifo := rest, seq := s.seq.afterPop rest }

/-- RST: every item at its reset value, the parameters and what the outside does next kept
(70_reset_and_hazards.md R133, log 7). -/
def State.applyReset (s : State) : State := { State.resetWith s.params with events := s.events }

end Sys2Proof.Machine
end

