-- ==== Sys2Proof/Machine/Command.lean ====
section
/-! DEFINITION. The commands (41_commands.md R89 to R94). -/

namespace Sys2Proof.Machine

/-- R89: no effect. -/
def execCmdNop (s : State) : Result := .next (s.answer none)

/-- R90, R91: BUSY is checked before PARAM; START is performed only if neither applies. -/
def execCmdStart (s : State) : Result :=
  .next ((if s.frameActive then s.raise .busy
    else if s.startParamsBad then s.raise .param
    else s.startFrame).answer none)

/-- R92: in RUN or DRAIN, OF and SR are cleared and STATE becomes ABORTED; else no effect. -/
def execCmdAbort (s : State) : Result :=
  .next ((if s.frameActive then s.abandonFrame else s).answer none)

/-- R93: ERR is cleared, and DONE or ABORTED becomes IDLE. -/
def execCmdClear (s : State) : Result :=
  .next (s.clear.answer none)

/-- R94: BADCMD, always. -/
def execCmdReserved (_v : Word) (s : State) : Result := .next ((s.raise .badCmd).answer none)

end Sys2Proof.Machine
end

