-- ==== Sys2Proof/Machine/Output.lean ====
section
/-! DEFINITION. The output pop (44_frame_output.md R117). -/

namespace Sys2Proof.Machine

/-- R117: not taken while OF is empty (the host has no step, R124); else the head byte is returned, and the pop that
empties OF in DRAIN makes the frame DONE. -/
def execOutPop (s : State) : Result :=
  match s.outFifo with
  | [] => .fault .popWaits
  | b :: rest => .next ((s.popTo rest).answer (some (b.setWidth 32)))

end Sys2Proof.Machine
end

