-- ==== Sys2Proof/Machine/Pixel.lean ====
section
/-! DEFINITION. The pixel push (42_quantizer_dither.md R96). -/

namespace Sys2Proof.Machine

/-- R96: not taken while IN_READY = 0 (the host has no step, R124); else the sample is quantized, its error diffused,
its bit packed, and the frame position advanced. -/
def execPixPush (smp : Byte) (s : State) : Result :=
  if s.inReady then .next ((s.acceptSample smp).answer none) else .fault .pushWaits

end Sys2Proof.Machine
end

