-- ==== Sys2Proof/Machine/RegRead.lean ====
section
/-! DEFINITION. The register reads (40_register_access.md R65 to R76). A read has no side effect, except that an
unmapped one raises BADADDR (20_memory.md R42). -/

namespace Sys2Proof.Machine

/-- R65: ret <- zext_32(CTRL.DITHER). -/
def execRdCtrl (s : State) : Result := .next (s.answer (some ((bit s.ctrlDither).setWidth 32)))

/-- R66: ret <- zext_32(WIDTH.W). -/
def execRdWidth (s : State) : Result := .next (s.answer (some (s.widthW.setWidth 32)))

/-- R67: ret <- zext_32(HEIGHT.H). -/
def execRdHeight (s : State) : Result := .next (s.answer (some (s.heightH.setWidth 32)))

/-- R68: ret <- zext_32(THRESHOLD.T). -/
def execRdThreshold (s : State) : Result := .next (s.answer (some (s.thresholdT.setWidth 32)))

/-- R69: ret <- PREFIX. -/
def execRdPrefix (s : State) : Result := .next (s.answer (some s.prefixWord))

/-- R70: ret <- zext_32 of ERR_EN above DONE_EN. -/
def execRdIrqEn (s : State) : Result := .next (s.answer (some s.irqEnWord))

/-- R71: ret <- 0; no command is issued. -/
def execRdCmd (s : State) : Result := .next (s.answer (some 0#32))

/-- R72: ret <- the STATUS word. -/
def execRdStatus (s : State) : Result := .next (s.answer (some s.statusWord))

/-- R73: ret <- zext_32(ERR[4:0]); ERR is not cleared. -/
def execRdErr (s : State) : Result := .next (s.answer (some (s.err.setWidth 32)))

/-- R74: ret <- the POS word. -/
def execRdPos (s : State) : Result := .next (s.answer (some s.posWord))

/-- R75: ret <- the CAPS word. -/
def execRdCaps (s : State) : Result := .next (s.answer (some s.capsWord))

/-- R76: ret <- 0 and BADADDR, whatever the unmapped offset. -/
def execRdUnmapped (_o : Byte) (s : State) : Result := .next ((s.raise .badAddr).answer (some 0#32))

end Sys2Proof.Machine
end

