-- ==== Sys2Proof/Machine/RegWrite.lean ====
section
/-! DEFINITION. The register writes (40_register_access.md R77 to R88). -/

namespace Sys2Proof.Machine

/-- R78. -/
def execWrCtrl (v : Word) (s : State) : Result := .next (s.writeIf (ctrlLegal v) { s with ctrlDither := v.getLsbD 0 })

/-- R79. -/
def execWrWidth (v : Word) (s : State) : Result := .next (s.writeIf (halfLegal v) { s with widthW := v.setWidth 16 })

/-- R80. -/
def execWrHeight (v : Word) (s : State) : Result := .next (s.writeIf (halfLegal v) { s with heightH := v.setWidth 16 })

/-- R81. -/
def execWrThreshold (v : Word) (s : State) : Result :=
  .next (s.writeIf (byteLegal v) { s with thresholdT := v.setWidth 8 })

/-- R82: every value is legal. -/
def execWrPrefix (v : Word) (s : State) : Result := .next (({ s with prefixWord := v }).answer none)

/-- R83. -/
def execWrIrqEn (v : Word) (s : State) : Result :=
  .next (s.writeIf (irqEnLegal v) { s with doneEn := v.getLsbD 0, errEn := v.getLsbD 1 })

/-- R84: BADWRITE, always. No field of STATUS is written; with ERR_EN = 1 its IRQ bit follows the raised bit (R23, R120,
R125), which R84's "no field of STATUS changes" does not say: DEDUCED, log 18. -/
def execWrStatus (_v : Word) (s : State) : Result := .next s.rejectWrite

/-- R85: BADWRITE, always; ERR is not cleared. -/
def execWrErr (_v : Word) (s : State) : Result := .next s.rejectWrite

/-- R86: BADWRITE, always. -/
def execWrPos (_v : Word) (s : State) : Result := .next s.rejectWrite

/-- R87: BADWRITE, always. -/
def execWrCaps (_v : Word) (s : State) : Result := .next s.rejectWrite

/-- R88: BADADDR, always. -/
def execWrUnmapped (_o : Byte) (_v : Word) (s : State) : Result := .next ((s.raise .badAddr).answer none)

end Sys2Proof.Machine
end

