-- ==== Sys2Proof/Machine/Dispatch.lean ====
section
/-! DEFINITION. One arm per transaction (30_encoding.md R59). -/

namespace Sys2Proof.Machine

def exec (i : Instr) (s : State) : Host.Outcome State Fault Refusal :=
  match i with
  | .rdCtrl => Sys2Proof.Machine.execRdCtrl s
  | .rdWidth => Sys2Proof.Machine.execRdWidth s
  | .rdHeight => Sys2Proof.Machine.execRdHeight s
  | .rdThreshold => Sys2Proof.Machine.execRdThreshold s
  | .rdPrefix => Sys2Proof.Machine.execRdPrefix s
  | .rdIrqEn => Sys2Proof.Machine.execRdIrqEn s
  | .rdCmd => Sys2Proof.Machine.execRdCmd s
  | .rdStatus => Sys2Proof.Machine.execRdStatus s
  | .rdErr => Sys2Proof.Machine.execRdErr s
  | .rdPos => Sys2Proof.Machine.execRdPos s
  | .rdCaps => Sys2Proof.Machine.execRdCaps s
  | .rdUnmapped o => Sys2Proof.Machine.execRdUnmapped o s
  | .wrCtrl v => Sys2Proof.Machine.execWrCtrl v s
  | .wrWidth v => Sys2Proof.Machine.execWrWidth v s
  | .wrHeight v => Sys2Proof.Machine.execWrHeight v s
  | .wrThreshold v => Sys2Proof.Machine.execWrThreshold v s
  | .wrPrefix v => Sys2Proof.Machine.execWrPrefix v s
  | .wrIrqEn v => Sys2Proof.Machine.execWrIrqEn v s
  | .wrStatus v => Sys2Proof.Machine.execWrStatus v s
  | .wrErr v => Sys2Proof.Machine.execWrErr v s
  | .wrPos v => Sys2Proof.Machine.execWrPos v s
  | .wrCaps v => Sys2Proof.Machine.execWrCaps v s
  | .wrUnmapped o v => Sys2Proof.Machine.execWrUnmapped o v s
  | .cmdNop => Sys2Proof.Machine.execCmdNop s
  | .cmdStart => Sys2Proof.Machine.execCmdStart s
  | .cmdAbort => Sys2Proof.Machine.execCmdAbort s
  | .cmdClear => Sys2Proof.Machine.execCmdClear s
  | .cmdReserved v => Sys2Proof.Machine.execCmdReserved v s
  | .pixPush smp => Sys2Proof.Machine.execPixPush smp s
  | .outPop => Sys2Proof.Machine.execOutPop s

end Sys2Proof.Machine
end

