-- ==== Sys2Proof/Machine/Step.lean ====
section
/-! DEFINITION. One step: the next thing the outside does (00_scope.md R4; 20_memory.md R47). -/

namespace Sys2Proof.Machine

/-- The next event is taken. A transaction is decoded and executed whole (R41); a reserved TD is refused by name and
changes nothing (R54); RST puts the reset state (R133); with nothing offered the EDR takes no step (R4). -/
def step (s : State) : Host.Outcome State Fault Refusal :=
  match s.events with
  | [] => .fault .noTransaction
  | .reset :: rest => .next ({ s with events := rest }).applyReset
  | .transaction td :: rest =>
    match decode td with
    | .error why => .refused (.reservedTd why)
    | .ok i => exec i { s with events := rest }

/-- The TD of a table word, offered by the host as its next transaction (log 3). -/
def State.withFetchWord (s : State) (nbits w : Nat) : State :=
  { s with events := .transaction (tdOfTableWord nbits w) :: s.events }

end Sys2Proof.Machine
end

