-- ==== Sys2Proof/Machine/Asm.lean ====
section
/-! DEFINITION. The assembler lines of 30_encoding.md R62 and the pseudo-instructions of R63, as abstract syntax (log 11). -/

namespace Sys2Proof.Machine

/-- The register names of R55. -/
inductive RegName where
  | ctrl
  | width
  | height
  | threshold
  | prefixReg
  | irqEn
  | cmd
  | status
  | err
  | pos
  | caps
  deriving DecidableEq, Repr

/-- The offset of a register (R55). -/
def RegName.offset : RegName → Byte
  | .ctrl => 0x00#8
  | .width => 0x04#8
  | .height => 0x08#8
  | .threshold => 0x0C#8
  | .prefixReg => 0x10#8
  | .irqEn => 0x14#8
  | .cmd => 0x18#8
  | .status => 0x1C#8
  | .err => 0x20#8
  | .pos => 0x24#8
  | .caps => 0x28#8

/-- One line of the syntax of R62. -/
inductive AsmLine where
  /-- `rd NAME` -/
  | rd (n : RegName)
  /-- `rd 0xOO` -/
  | rdAt (o : Byte)
  /-- `wr NAME, v` -/
  | wr (n : RegName) (v : Word)
  /-- `wr 0xOO, v` -/
  | wrAt (o : Byte) (v : Word)
  /-- `push s` -/
  | push (s : Byte)
  /-- `pop` -/
  | pop
  deriving DecidableEq, Repr

/-- The transaction a line stands for. -/
def AsmLine.instr : AsmLine → Instr
  | .rd n => decodeRead n.offset
  | .rdAt o => decodeRead o
  | .wr n v => decodeWrite n.offset v
  | .wrAt o v => decodeWrite o v
  | .push s => .pixPush s
  | .pop => .outPop

/-- The TD of a line (R62, R53). -/
def AsmLine.td : AsmLine → Td
  | .rd n => encodeRead n.offset
  | .rdAt o => encodeRead o
  | .wr n v => encodeWrite n.offset v
  | .wrAt o v => encodeWrite o v
  | .push s => mkTd 0b01#2 1#1 0#8 (s.setWidth 32)
  | .pop => mkTd 0b10#2 0#1 0#8 0#32

/-- The four commands by name (R56). -/
inductive CommandName where
  | nop
  | start
  | abort
  | clear
  deriving DecidableEq, Repr

/-- The code of a command (R56). -/
def CommandName.code : CommandName → Word
  | .nop => 0#32
  | .start => 1#32
  | .abort => 2#32
  | .clear => 3#32

/-- The pseudo-instructions that are text (R63); `poll` is a host-side loop, below. -/
inductive Pseudo where
  | cmd (c : CommandName)
  | setup (w h t d : Word)
  | frame (w h t d : Word)
  | drain (n : Nat)
  | pushrow (row : List Byte)
  deriving DecidableEq, Repr

/-- `setup W, H, T, D` (R63). -/
def expandSetup (w h t d : Word) : List AsmLine := [.wr .width w, .wr .height h, .wr .threshold t, .wr .ctrl d]

/-- The expansions of R63. -/
def Pseudo.expand : Pseudo → List AsmLine
  | .cmd c => [.wr .cmd c.code]
  | .setup w h t d => expandSetup w h t d
  | .frame w h t d => expandSetup w h t d ++ [.wr .cmd CommandName.start.code]
  | .drain n => List.replicate n .pop
  | .pushrow row => row.map .push

/-- The host issuing lines in order: what the outside does next (log 3). -/
def programEvents (lines : List AsmLine) : List Event := lines.map fun l => .transaction l.td

/-- `poll NAME, mask, value`, for at most `tries` reads: `rd NAME` until (result & mask) = value (R63); none when the
reads run out. -/
def poll (n : RegName) (mask value : Word) : Nat → State → Option State
  | 0, _ => none
  | tries + 1, s =>
    match exec (decodeRead n.offset) s with
    | .next t => if t.ret.map (· &&& mask) = some value then some t else poll n mask value tries t
    | .fault _ => none
    | .refused _ => none

end Sys2Proof.Machine
end

