-- ==== Sys2Proof/Machine/AsmText.lean ====
section
/-! DEFINITION. The text of the assembler lines (30_encoding.md R62) and of the pseudo-instructions (R63): reading a line
and writing one. The spec fixes the words and the numbers; where spaces may stand is the model's choice (log 11). -/

namespace Sys2Proof.Machine

/-- What one line of text stands for: a transaction, a pseudo-instruction, or the host-side loop `poll` (R63). -/
inductive AsmStatement where
  | line (l : AsmLine)
  | pseudo (p : Pseudo)
  | poll (n : RegName) (mask value : Word)
  deriving DecidableEq, Repr

/-- The name of a register (R55). -/
def RegName.text : RegName → List Char
  | .ctrl => ['C', 'T', 'R', 'L']
  | .width => ['W', 'I', 'D', 'T', 'H']
  | .height => ['H', 'E', 'I', 'G', 'H', 'T']
  | .threshold => ['T', 'H', 'R', 'E', 'S', 'H', 'O', 'L', 'D']
  | .prefixReg => ['P', 'R', 'E', 'F', 'I', 'X']
  | .irqEn => ['I', 'R', 'Q', '_', 'E', 'N']
  | .cmd => ['C', 'M', 'D']
  | .status => ['S', 'T', 'A', 'T', 'U', 'S']
  | .err => ['E', 'R', 'R']
  | .pos => ['P', 'O', 'S']
  | .caps => ['C', 'A', 'P', 'S']

/-- The eleven registers of R55. -/
def RegName.all : List RegName :=
  [.ctrl, .width, .height, .threshold, .prefixReg, .irqEn, .cmd, .status, .err, .pos, .caps]

/-- The register a name names. -/
def RegName.ofText (cs : List Char) : Option RegName := RegName.all.find? fun n => n.text == cs

/-- The name of a command (R63). -/
def CommandName.ofText (cs : List Char) : Option CommandName :=
  if cs = ['N', 'O', 'P'] then some .nop
  else if cs = ['S', 'T', 'A', 'R', 'T'] then some .start
  else if cs = ['A', 'B', 'O', 'R', 'T'] then some .abort
  else if cs = ['C', 'L', 'E', 'A', 'R'] then some .clear
  else none

/-- The value of a digit in hexadecimal, capital or small letters. -/
def hexDigitValue (c : Char) : Option Nat :=
  let n := c.toNat
  if 48 ≤ n ∧ n ≤ 57 then some (n - 48)
  else if 65 ≤ n ∧ n ≤ 70 then some (n - 55)
  else if 97 ≤ n ∧ n ≤ 102 then some (n - 87)
  else none

/-- The value of digits in a base, the most significant first; none if one of them is no digit of the base. -/
def digitsValue (base : Nat) (acc : Nat) : List Char → Option Nat
  | [] => some acc
  | c :: cs =>
    match hexDigitValue c with
    | some d => if d < base then digitsValue base (acc * base + d) cs else none
    | none => none

/-- A number: decimal, or hexadecimal with `0x` (R62). -/
def readNumber : List Char → Option Nat
  | [] => none
  | [c] => digitsValue 10 0 [c]
  | c :: d :: cs => if c = '0' ∧ d = 'x' then (if cs = [] then none else digitsValue 16 0 cs) else digitsValue 10 0 (c :: d :: cs)

/-- A number that fits in a byte: an offset or a sample (R62). -/
def readByte (cs : List Char) : Option Byte :=
  (readNumber cs).bind fun n => if n < 256 then some (BitVec.ofNat 8 n) else none

/-- A number that fits in a word: the DATA of a write (R62). -/
def readWord (cs : List Char) : Option Word :=
  (readNumber cs).bind fun n => if n < 4294967296 then some (BitVec.ofNat 32 n) else none

/-- The text before a comment (R62). -/
def stripComment (cs : List Char) : List Char := cs.takeWhile (· ≠ ';')

/-- The text without the spaces at its ends. -/
def trimSpaces (cs : List Char) : List Char := ((cs.dropWhile (· = ' ')).reverse.dropWhile (· = ' ')).reverse

/-- The operands between commas. -/
def splitOperands : List Char → List (List Char)
  | [] => [[]]
  | c :: cs =>
    match splitOperands cs with
    | [] => [[c]]
    | w :: ws => if c = ',' then [] :: w :: ws else (c :: w) :: ws

/-- The values of a list of operands. -/
def readAll {α : Type} (read : List Char → Option α) : List (List Char) → Option (List α)
  | [] => some []
  | w :: ws => (read w).bind fun v => (readAll read ws).map fun vs => v :: vs

/-- A register by name, or the offset it is given by (R62). -/
def readTarget (cs : List Char) : Option (RegName ⊕ Byte) :=
  match RegName.ofText cs with
  | some n => some (.inl n)
  | none => (readByte cs).map .inr

/-- A read or a write of a register given by name or offset. -/
def readAccess (target : RegName ⊕ Byte) : AsmStatement :=
  match target with
  | .inl n => .line (.rd n)
  | .inr o => .line (.rdAt o)

/-- A write of a register given by name or offset. -/
def writeAccess (target : RegName ⊕ Byte) (v : Word) : AsmStatement :=
  match target with
  | .inl n => .line (.wr n v)
  | .inr o => .line (.wrAt o v)

/-- The four operands of `setup` and `frame`. -/
def readFour (build : Word → Word → Word → Word → Pseudo) (ws : List (List Char)) : Option AsmStatement :=
  (readAll readWord ws).bind fun vs =>
    match vs with
    | [w, h, t, d] => some (.pseudo (build w h t d))
    | _ => none

/-- The statement of a mnemonic and its operands (R62, R63). -/
def readStatement (mnemonic : List Char) (operands : List (List Char)) : Option AsmStatement :=
  if mnemonic = ['r', 'd'] then
    match operands with
    | [t] => (readTarget t).map readAccess
    | _ => none
  else if mnemonic = ['w', 'r'] then
    match operands with
    | [t, v] => (readTarget t).bind fun t => (readWord v).map (writeAccess t)
    | _ => none
  else if mnemonic = ['p', 'u', 's', 'h'] then
    match operands with
    | [s] => (readByte s).map fun s => .line (.push s)
    | _ => none
  else if mnemonic = ['p', 'o', 'p'] then
    if operands = [[]] then some (.line .pop) else none
  else if mnemonic = ['c', 'm', 'd'] then
    match operands with
    | [c] => (CommandName.ofText c).map fun c => .pseudo (.cmd c)
    | _ => none
  else if mnemonic = ['s', 'e', 't', 'u', 'p'] then readFour .setup operands
  else if mnemonic = ['f', 'r', 'a', 'm', 'e'] then readFour .frame operands
  else if mnemonic = ['d', 'r', 'a', 'i', 'n'] then
    match operands with
    | [n] => (readNumber n).map fun n => .pseudo (.drain n)
    | _ => none
  else if mnemonic = ['p', 'u', 's', 'h', 'r', 'o', 'w'] then (readAll readByte operands).map fun row => .pseudo (.pushrow row)
  else if mnemonic = ['p', 'o', 'l', 'l'] then
    match operands with
    | [n, m, v] =>
      (RegName.ofText n).bind fun n => (readWord m).bind fun m => (readWord v).map fun v => .poll n m v
    | _ => none
  else none

/-- The statement on a line of text: `none` where it is not one of R62 or R63, `some none` for a line that holds only
spaces or a comment. -/
def readLine (cs : List Char) : Option (Option AsmStatement) :=
  let cs := trimSpaces (stripComment cs)
  if cs = [] then some none
  else
    (readStatement (cs.takeWhile (· ≠ ' ')) ((splitOperands (cs.dropWhile (· ≠ ' '))).map trimSpaces)).map some

/-- A digit in hexadecimal. -/
def hexDigit (n : Nat) : Char := if n < 10 then Char.ofNat (48 + n) else Char.ofNat (55 + n)

/-- A byte as `0xBB`. -/
def writeByte (b : Byte) : List Char :=
  ['0', 'x', hexDigit (b.toNat / 16), hexDigit (b.toNat % 16)]

/-- A word as `0xVVVVVVVV`. -/
def writeWord (v : Word) : List Char :=
  ['0', 'x', hexDigit (v.toNat / 268435456), hexDigit (v.toNat / 16777216 % 16), hexDigit (v.toNat / 1048576 % 16),
    hexDigit (v.toNat / 65536 % 16), hexDigit (v.toNat / 4096 % 16), hexDigit (v.toNat / 256 % 16),
    hexDigit (v.toNat / 16 % 16), hexDigit (v.toNat % 16)]

/-- The text of an assembler line (R62). -/
def AsmLine.text : AsmLine → List Char
  | .rd n => ['r', 'd', ' '] ++ n.text
  | .rdAt o => ['r', 'd', ' '] ++ writeByte o
  | .wr n v => ['w', 'r', ' '] ++ n.text ++ [',', ' '] ++ writeWord v
  | .wrAt o v => ['w', 'r', ' '] ++ writeByte o ++ [',', ' '] ++ writeWord v
  | .push s => ['p', 'u', 's', 'h', ' '] ++ writeByte s
  | .pop => ['p', 'o', 'p']

end Sys2Proof.Machine
end

