-- ==== Sys2Proof/OpcodeTable.lean ====
section
/-! DEFINITION. spec/opcode_table.json as data: each row's mnemonic, match, mask and priority, and the lookup 30_encoding.md
R59 describes. Claims compare the decoder with it. -/

namespace Sys2Proof

/-- A row of spec/opcode_table.json: it matches a TD whose bits under `mask` are those of `value`. -/
structure OpcodeRow where
  mnemonic : String
  value : Td
  mask : Td
  priority : Nat
  deriving DecidableEq, Repr

/-- The register reads. -/
def readRows : List OpcodeRow := [
  ⟨"RD_CTRL", 0x000000000000#48, 0xFFFFFFFFFFFF#48, 0⟩,
  ⟨"RD_WIDTH", 0x000400000000#48, 0xFFFFFFFFFFFF#48, 0⟩,
  ⟨"RD_HEIGHT", 0x000800000000#48, 0xFFFFFFFFFFFF#48, 0⟩,
  ⟨"RD_THRESHOLD", 0x000C00000000#48, 0xFFFFFFFFFFFF#48, 0⟩,
  ⟨"RD_PREFIX", 0x001000000000#48, 0xFFFFFFFFFFFF#48, 0⟩,
  ⟨"RD_IRQ_EN", 0x001400000000#48, 0xFFFFFFFFFFFF#48, 0⟩,
  ⟨"RD_CMD", 0x001800000000#48, 0xFFFFFFFFFFFF#48, 0⟩,
  ⟨"RD_STATUS", 0x001C00000000#48, 0xFFFFFFFFFFFF#48, 0⟩,
  ⟨"RD_ERR", 0x002000000000#48, 0xFFFFFFFFFFFF#48, 0⟩,
  ⟨"RD_POS", 0x002400000000#48, 0xFFFFFFFFFFFF#48, 0⟩,
  ⟨"RD_CAPS", 0x002800000000#48, 0xFFFFFFFFFFFF#48, 0⟩,
  ⟨"RD_UNMAPPED", 0x000000000000#48, 0xFF00FFFFFFFF#48, 2⟩]

/-- The register writes. -/
def writeRows : List OpcodeRow := [
  ⟨"WR_CTRL", 0x200000000000#48, 0xFFFF00000000#48, 0⟩,
  ⟨"WR_WIDTH", 0x200400000000#48, 0xFFFF00000000#48, 0⟩,
  ⟨"WR_HEIGHT", 0x200800000000#48, 0xFFFF00000000#48, 0⟩,
  ⟨"WR_THRESHOLD", 0x200C00000000#48, 0xFFFF00000000#48, 0⟩,
  ⟨"WR_PREFIX", 0x201000000000#48, 0xFFFF00000000#48, 0⟩,
  ⟨"WR_IRQ_EN", 0x201400000000#48, 0xFFFF00000000#48, 0⟩,
  ⟨"WR_STATUS", 0x201C00000000#48, 0xFFFF00000000#48, 0⟩,
  ⟨"WR_ERR", 0x202000000000#48, 0xFFFF00000000#48, 0⟩,
  ⟨"WR_POS", 0x202400000000#48, 0xFFFF00000000#48, 0⟩,
  ⟨"WR_CAPS", 0x202800000000#48, 0xFFFF00000000#48, 0⟩,
  ⟨"WR_UNMAPPED", 0x200000000000#48, 0xFF0000000000#48, 2⟩]

/-- The commands. -/
def commandRows : List OpcodeRow := [
  ⟨"CMD_NOP", 0x201800000000#48, 0xFFFFFFFFFFFF#48, 0⟩,
  ⟨"CMD_START", 0x201800000001#48, 0xFFFFFFFFFFFF#48, 0⟩,
  ⟨"CMD_ABORT", 0x201800000002#48, 0xFFFFFFFFFFFF#48, 0⟩,
  ⟨"CMD_CLEAR", 0x201800000003#48, 0xFFFFFFFFFFFF#48, 0⟩,
  ⟨"CMD_RESERVED", 0x201800000000#48, 0xFFFF00000000#48, 1⟩]

/-- The streams. -/
def streamRows : List OpcodeRow := [
  ⟨"PIX_PUSH", 0x600000000000#48, 0xFFFFFFFFFF00#48, 0⟩,
  ⟨"OUT_POP", 0x800000000000#48, 0xFFFFFFFFFFFF#48, 0⟩]

/-- The 30 rows. -/
def opcodeRows : List OpcodeRow := readRows ++ writeRows ++ commandRows ++ streamRows

/-- A row matches a TD. -/
def OpcodeRow.Matches (r : OpcodeRow) (td : Td) : Bool := td &&& r.mask == r.value

/-- The first row of a priority that matches. -/
def lookupAt (p : Nat) (td : Td) : Option OpcodeRow := opcodeRows.find? fun r => r.priority == p && r.Matches td

/-- The lookup of R59: exact rows first (priority 0), then priority 1, then priority 2. -/
def tableLookup (td : Td) : Option String :=
  (((lookupAt 0 td).or (lookupAt 1 td)).or (lookupAt 2 td)).map (·.mnemonic)

/-- The table's name of a transaction. -/
def Instr.mnemonic (i : Instr) : String :=
  match i with
  | .rdCtrl => "RD_CTRL"
  | .rdWidth => "RD_WIDTH"
  | .rdHeight => "RD_HEIGHT"
  | .rdThreshold => "RD_THRESHOLD"
  | .rdPrefix => "RD_PREFIX"
  | .rdIrqEn => "RD_IRQ_EN"
  | .rdCmd => "RD_CMD"
  | .rdStatus => "RD_STATUS"
  | .rdErr => "RD_ERR"
  | .rdPos => "RD_POS"
  | .rdCaps => "RD_CAPS"
  | .rdUnmapped _ => "RD_UNMAPPED"
  | .wrCtrl _ => "WR_CTRL"
  | .wrWidth _ => "WR_WIDTH"
  | .wrHeight _ => "WR_HEIGHT"
  | .wrThreshold _ => "WR_THRESHOLD"
  | .wrPrefix _ => "WR_PREFIX"
  | .wrIrqEn _ => "WR_IRQ_EN"
  | .wrStatus _ => "WR_STATUS"
  | .wrErr _ => "WR_ERR"
  | .wrPos _ => "WR_POS"
  | .wrCaps _ => "WR_CAPS"
  | .wrUnmapped _ _ => "WR_UNMAPPED"
  | .cmdNop => "CMD_NOP"
  | .cmdStart => "CMD_START"
  | .cmdAbort => "CMD_ABORT"
  | .cmdClear => "CMD_CLEAR"
  | .cmdReserved _ => "CMD_RESERVED"
  | .pixPush _ => "PIX_PUSH"
  | .outPop => "OUT_POP"

end Sys2Proof
end

