-- ==== Sys2Proof/Safety.lean ====
section
/-! DEFINITION. What claims about runs are stated in: the invariant of the EDR's state, sequences of taken transactions,
and the frame the spec gives for a sequence of samples (30_encoding.md R58, 42_quantizer_dither.md R95 to R104,
43_packer.md R109 to R114), written apart from the machine. -/

namespace Sys2Proof.Machine

/-- How large entry i of CUR can be when column x is next: below and at x every share is in (7 + 3 + 5 + 1 sixteenths,
each share truncated), to the right of x the right share is still missing (42_quantizer_dither.md R105). -/
def curBound (x i : Nat) : Int := if i ≤ x then 252 else 141

/-- How large entry i of NXT can be when column x is next, by the shares of this row that it has received (R105). -/
def nxtBound (x i : Nat) : Int := if i + 1 < x then 141 else if i + 1 = x then 94 else if i = x then 15 else 0

/-- The invariant of the EDR's state. -/
structure State.Inv (s : State) : Prop where
  /-- OF holds at most OFIFO_DEPTH bytes (R32). -/
  fifoFits : s.outFifo.length ≤ s.params.ofifoDepth
  /-- OF is empty outside RUN and DRAIN (R117). -/
  quietFifo : s.frameActive = false → s.outFifo = []
  /-- In DRAIN the FIFO still holds bytes of the frame (R27). -/
  drained : s.seq = .drain → s.outFifo ≠ []
  /-- After the last sample, X = 0 and Y = LH, until the next START or CLEAR (R29). -/
  finished : s.seq = .drain ∨ s.seq = .done → s.x = 0#16 ∧ s.y = s.lh
  /-- An active frame's size passed START's checks (R90). -/
  frameSize : s.frameActive = true → 0 < s.lw.toNat ∧ s.lw.toNat ≤ s.params.maxWidth ∧ 0 < s.lh.toNat
  /-- In RUN, X < LW and Y < LH (R29). -/
  position : s.seq = .run → s.x.toNat < s.lw.toNat ∧ s.y.toNat < s.lh.toNat
  /-- The line buffers are in canonical form (log 8). -/
  curWf : s.cur.Wf
  nxtWf : s.nxt.Wf
  /-- Only entries below LW are written during a frame (R31, R45). -/
  curIndex : s.seq = .run → ∀ e ∈ s.cur, e.1 < s.lw.toNat
  nxtIndex : s.seq = .run → ∀ e ∈ s.nxt, e.1 < s.lw.toNat
  /-- Under thresholding both buffers stay 0 (R106). -/
  thresholdBuffers : s.seq = .run → s.ld = false → s.cur = [] ∧ s.nxt = []
  /-- The error entries stay in range (R105). -/
  curRange : s.seq = .run → ∀ i, |(lineGet s.cur i).toInt| ≤ curBound s.x.toNat i
  nxtRange : s.seq = .run → ∀ i, |(lineGet s.nxt i).toInt| ≤ nxtBound s.x.toNat i
  /-- The bits of SR that no pixel of the byte has written are 0 (R30, R112). -/
  partialByte : s.seq = .run → ∀ k, k < 8 - s.x.toNat % 8 → s.sr.getLsbD k = false

/-- START would be performed (41_commands.md R90). -/
def State.startAccepted (s : State) : Bool := !s.frameActive && !s.startParamsBad

/-- The byte a taken transaction delivered at the output port: the return value of a pop (R117). -/
def deliveredBy (i : Instr) (t : State) : List Byte :=
  match i, t.ret with
  | .outPop, some v => [v.setWidth 8]
  | _, _ => []

/-- The samples among the transactions (R95). -/
def pushedSamples (is : List Instr) : List Byte := is.filterMap fun i => match i with | .pixPush s => some s | _ => none

/-- A sequence of transactions, each offered while a frame is active (RUN or DRAIN) and each taken: the bytes delivered,
in order, and the state left. None if one of them is not taken or the frame is no longer active before it. -/
def activeRun : List Instr → State → Option (List Byte × State)
  | [], s => some ([], s)
  | i :: is, s =>
    if s.frameActive then
      match exec i s with
      | .next t =>
        match activeRun is t with
        | some (bs, u) => some (deliveredBy i t ++ bs, u)
        | none => none
      | .fault _ => none
      | .refused _ => none
    else none

/-- The class of the next pixel (true is black) and its quantization error, from those of the pixels before it in scan
order (R95): its corrected value is the sample plus the shares its four visited neighbours pass on (R98, R102, R103,
R104), pulled from the neighbours where the machine pushes them. Under thresholding the error is 0 (R99). -/
def nextPixel (w : Nat) (lt : Nat) (ld : Bool) (before : List (Bool × Int)) (smp : Byte) : Bool × Int :=
  let k := before.length
  let x := k % w
  let e := fun j => (before.getD j (false, 0)).2
  let c : Int := (smp.toNat : Int)
    + (if 1 ≤ x then share (e (k - 1)) 7 else 0)
    + (if w ≤ k ∧ x + 1 < w then share (e (k - w + 1)) 3 else 0)
    + (if w ≤ k then share (e (k - w)) 5 else 0)
    + (if w ≤ k ∧ 1 ≤ x then share (e (k - w - 1)) 1 else 0)
  let black := decide (c < (lt : Int))
  (black, if ld then c - (if black then 0 else 255) else 0)

/-- The classes and errors of the pixels of a sequence of samples, in scan order. -/
def classify (w lt : Nat) (ld : Bool) (samples : List Byte) : List (Bool × Int) :=
  samples.foldl (fun before smp => before ++ [nextPixel w lt ld before smp]) []

/-- Whether pixel (x, y) is black: pixel k = y·w + x of the scan order (R95). -/
def blackAt (w : Nat) (pixels : List (Bool × Int)) (x y : Nat) : Bool := (pixels.getD (y * w + x) (false, 0)).1

/-- Byte j of row y: columns 8j to 8j + 7, the leftmost in bit 7, columns beyond the width white (R110, R112). -/
def packedByte (w : Nat) (black : Nat → Nat → Bool) (y j : Nat) : Byte :=
  let px := fun b => decide (8 * j + b < w) && black (8 * j + b) y
  BitVec.ofBoolListBE [px 0, px 1, px 2, px 3, px 4, px 5, px 6, px 7]

/-- The packed bitmap, row-major (R58). -/
def packedBitmap (w h : Nat) (black : Nat → Nat → Bool) : List Byte :=
  (List.range h).flatMap fun y => (List.range ((w + 7) / 8)).map fun j => packedByte w black y j

/-- unpack(bitmap, x, y) (R114). -/
def unpackPixel (w : Nat) (bitmap : List Byte) (x y : Nat) : Bool :=
  (bitmap.getD (y * ((w + 7) / 8) + x / 8) 0#8).getLsbD (7 - x % 8)

/-- A frame (R58): the prefix bytes, LE16(BPL), LE16(H), the packed bitmap. -/
def frameBytes (p : Word) (w h : Nat) (bitmap : List Byte) : List Byte :=
  [p.extractLsb' 0 8, p.extractLsb' 8 8, p.extractLsb' 16 8, p.extractLsb' 24 8,
    BitVec.ofNat 8 ((w + 7) / 8 % 256), BitVec.ofNat 8 ((w + 7) / 8 / 256), BitVec.ofNat 8 (h % 256),
    BitVec.ofNat 8 (h / 256)] ++ bitmap

/-- The frame of a START at `s` and the samples pushed after it (R118). -/
def frameFor (s : State) (samples : List Byte) : List Byte :=
  frameBytes s.prefixWord s.widthW.toNat s.heightH.toNat
    (packedBitmap s.widthW.toNat s.heightH.toNat
      (blackAt s.widthW.toNat (classify s.widthW.toNat s.thresholdT.toNat s.ctrlDither samples)))

end Sys2Proof.Machine
end

