-- ==== Sys2Proof/Certificates/Slice0/Obligations.lean ====
section
/-! DEFINITION. The statements about the EDR, from the numbered rules of spec/. A next state is written out in full
wherever it can be, so that it is the frame as well. `ret` is the model's own field for a transaction's return value
(log 4), `events` the model's own field for what the outside does next (log 3); no statement rests on their values at
reset. -/

open Sys2Proof Sys2Proof.Machine

namespace Sys2Proof.Claims

/-- IN_READY as R33 writes it. -/
abbrev Ready (s : State) : Prop := s.seq = .run ∧ s.outFifo.length < s.params.ofifoDepth

/-- A frame is active: STATE ∈ {RUN, DRAIN} (R90). -/
abbrev Active (s : State) : Prop := s.seq = .run ∨ s.seq = .drain

/-- START's second precondition fails (R90). -/
abbrev BadSize (s : State) : Prop :=
  s.widthW.toNat = 0 ∨ s.params.maxWidth < s.widthW.toNat ∨ s.heightH.toNat = 0

/-- The corrected value of the next pixel (R98). -/
def correctedValue (s : State) (smp : Byte) : Int :=
  (smp.toNat : Int) + if s.ld then (lineGet s.cur s.x.toNat).toInt else 0

/-- The error a pushed pixel passes on: that of R101 when dithering, none when thresholding (R99). -/
def passedError (s : State) (smp : Byte) : Int :=
  if s.ld then correctedValue s smp - (if correctedValue s smp < (s.lt.toNat : Int) then 0 else 255) else 0

/-- Entry i of CUR after Distribute (R103, R104). -/
def curAfter (s : State) (e : Int) (i : Nat) : Int :=
  (lineGet s.cur i).toInt + if s.x.toNat + 1 < s.lw.toNat ∧ i = s.x.toNat + 1 then share e 7 else 0

/-- Entry i of NXT after Distribute (R103, R104). -/
def nxtAfter (s : State) (e : Int) (i : Nat) : Int :=
  (lineGet s.nxt i).toInt +
    if s.y.toNat + 1 < s.lh.toNat then
      (if 1 ≤ s.x.toNat ∧ i + 1 = s.x.toNat then share e 3 else 0) + (if i = s.x.toNat then share e 5 else 0)
        + (if s.x.toNat + 1 < s.lw.toNat ∧ i = s.x.toNat + 1 then share e 1 else 0)
    else 0

/-- The table of R121: does transaction i at s raise the error with cause code k? -/
def raisesCause (i : Instr) (s : State) (k : Nat) : Prop :=
  match i with
  | .cmdReserved _ => k = 0
  | .wrCtrl v => k = 1 ∧ 1 < v.toNat
  | .wrWidth v | .wrHeight v => k = 1 ∧ 0xFFFF < v.toNat
  | .wrThreshold v => k = 1 ∧ 255 < v.toNat
  | .wrIrqEn v => k = 1 ∧ 3 < v.toNat
  | .wrStatus _ | .wrErr _ | .wrPos _ | .wrCaps _ => k = 1
  | .rdUnmapped _ | .wrUnmapped _ _ => k = 2
  | .cmdStart => (k = 3 ∧ ¬ Active s ∧ BadSize s) ∨ (k = 4 ∧ Active s)
  | .rdCtrl | .rdWidth | .rdHeight | .rdThreshold | .rdPrefix | .rdIrqEn | .rdCmd | .rdStatus | .rdErr | .rdPos
  | .rdCaps | .wrPrefix _ | .cmdNop | .cmdAbort | .cmdClear | .pixPush _ | .outPop => False

/-- A register read of a mapped offset. -/
def MappedRead (i : Instr) : Prop :=
  i = .rdCtrl ∨ i = .rdWidth ∨ i = .rdHeight ∨ i = .rdThreshold ∨ i = .rdPrefix ∨ i = .rdIrqEn ∨ i = .rdCmd ∨
    i = .rdStatus ∨ i = .rdErr ∨ i = .rdPos ∨ i = .rdCaps

/-- A write to a read/write register. -/
def RwWrite (i : Instr) : Prop :=
  ∃ v, i = .wrCtrl v ∨ i = .wrWidth v ∨ i = .wrHeight v ∨ i = .wrThreshold v ∨ i = .wrPrefix v ∨ i = .wrIrqEn v

/-- A command (R56). -/
def IsCommand (i : Instr) : Prop :=
  i = .cmdNop ∨ i = .cmdStart ∨ i = .cmdAbort ∨ i = .cmdClear ∨ ∃ v, i = .cmdReserved v

/-- Everything a frame's bytes come from, apart from the programmed registers. -/
def frameState (s : State) : Half × Half × Byte × Bool × Half × Half × Byte × LineBuf × LineBuf × List Byte :=
  (s.lw, s.lh, s.lt, s.ld, s.x, s.y, s.sr, s.cur, s.nxt, s.outFifo)

/-- The transaction that reads a register, by its name (R55, R59). -/
def readOf : RegName → Instr
  | .ctrl => .rdCtrl
  | .width => .rdWidth
  | .height => .rdHeight
  | .threshold => .rdThreshold
  | .prefixReg => .rdPrefix
  | .irqEn => .rdIrqEn
  | .cmd => .rdCmd
  | .status => .rdStatus
  | .err => .rdErr
  | .pos => .rdPos
  | .caps => .rdCaps

/-- The transaction that writes v to a register, by its name (R55, R59); a write to CMD is the command of its code (R56). -/
def writeOf (n : RegName) (v : Word) : Instr :=
  match n with
  | .ctrl => .wrCtrl v
  | .width => .wrWidth v
  | .height => .wrHeight v
  | .threshold => .wrThreshold v
  | .prefixReg => .wrPrefix v
  | .irqEn => .wrIrqEn v
  | .cmd =>
    match v.toNat with
    | 0 => .cmdNop
    | 1 => .cmdStart
    | 2 => .cmdAbort
    | 3 => .cmdClear
    | _ => .cmdReserved v
  | .status => .wrStatus v
  | .err => .wrErr v
  | .pos => .wrPos v
  | .caps => .wrCaps v

/-- The register at an offset: the names of R55's table in its order, four offsets apart; none where it is unmapped. -/
def registerAt (o : Byte) : Option RegName :=
  if o.toNat % 4 = 0 then
    [.ctrl, .width, .height, .threshold, .prefixReg, .irqEn, .cmd, .status, .err, .pos, .caps][o.toNat / 4]?
  else none

/-- The transaction an assembler line names (R62). -/
def namedBy : AsmLine → Instr
  | .rd n => readOf n
  | .rdAt o =>
    match registerAt o with
    | some n => readOf n
    | none => .rdUnmapped o
  | .wr n v => writeOf n v
  | .wrAt o v =>
    match registerAt o with
    | some n => writeOf n v
    | none => .wrUnmapped o v
  | .push smp => .pixPush smp
  | .pop => .outPop

end Sys2Proof.Claims

open Sys2Proof.Claims

/-! ### Encoding -/

/-- R59, R53: the TD of every transaction decodes to it, operands and all. -/
def Obligations.DecodeEncodeRoundTrip : Prop := ∀ i : Instr, i.Wf → decode (encode i) = .ok i

/-- R59: what a TD decodes to is a transaction, and the TD is the only one that spells it. -/
def Obligations.DecodedTransactionEncodesBack : Prop :=
  ∀ (td : Td) (i : Instr), decode td = .ok i → i.Wf ∧ encode i = td

/-- R54: the reserved TDs are exactly those listed; the decoder refuses each by name, and a step on one is a refusal, so
no state changes. -/
def Obligations.ReservedTdsRefused : Prop :=
  ∀ td : Td,
    ((∃ why, decode td = .error why) ↔
      td.extractLsb' 46 2 = 0b11#2 ∨
      td.extractLsb' 40 5 ≠ 0#5 ∨
      (td.extractLsb' 46 2 = 0b01#2 ∧
        (td.getLsbD 45 = false ∨ td.extractLsb' 32 8 ≠ 0#8 ∨ td.extractLsb' 8 24 ≠ 0#24)) ∨
      (td.extractLsb' 46 2 = 0b10#2 ∧
        (td.getLsbD 45 = true ∨ td.extractLsb' 32 8 ≠ 0#8 ∨ td.extractLsb' 0 32 ≠ 0#32)) ∨
      (td.extractLsb' 46 2 = 0b00#2 ∧ td.getLsbD 45 = false ∧ td.extractLsb' 0 32 ≠ 0#32)) ∧
    (∀ (s : State) (rest : List Event) (why : Reserved), s.events = .transaction td :: rest →
      decode td = .error why → step s = .refused (.reservedTd why))

/-- R59 and spec/opcode_table.json: the decoder names the row that the table's lookup by priority finds, and finds none
where the lookup finds none; the table has 30 rows, and no two of equal priority match the same TD. -/
def Obligations.DecoderAgreesWithOpcodeTable : Prop :=
  opcodeRows.length = 30 ∧
  (∀ td : Td, tableLookup td = match decode td with | .ok i => some i.mnemonic | .error _ => none) ∧
  (∀ r₁ ∈ opcodeRows, ∀ r₂ ∈ opcodeRows, r₁ ≠ r₂ → r₁.priority = r₂.priority →
    ∀ td : Td, ¬ (r₁.Matches td = true ∧ r₂.Matches td = true))

/-- 95_test_vectors.md: words the spec writes out, one or more of each family. -/
def Obligations.SpecWordsDecode : Prop :=
  decode 0x000500000000#48 = .ok (.rdUnmapped 0x05#8) ∧
  decode 0x001C00000000#48 = .ok .rdStatus ∧
  decode 0x200400010000#48 = .ok (.wrWidth 0x10000#32) ∧
  decode 0x20100330761D#48 = .ok (.wrPrefix 0x0330761D#32) ∧
  decode 0x201900000001#48 = .ok (.wrUnmapped 0x19#8 1#32) ∧
  decode 0x201800000001#48 = .ok .cmdStart ∧
  decode 0x201800000101#48 = .ok (.cmdReserved 0x101#32) ∧
  decode 0x6000000000C8#48 = .ok (.pixPush 200#8) ∧
  decode 0x800000000000#48 = .ok .outPop

/-! ### The step and reset -/

/-- R4, R41, R47: the step on an offered TD that spells a transaction is that transaction's meaning, at the state from
which the TD has been taken. That the host's transactions wait in a list is the model's choice (log 3). -/
def Obligations.StepRunsDecodedTransaction : Prop :=
  ∀ (s : State) (td : Td) (rest : List Event) (i : Instr),
    s.events = .transaction td :: rest → decode td = .ok i → step s = exec i { s with events := rest }

/-- R4: the EDR takes no step of its own. That the model answers this with a stop is its own choice (log 6). -/
def Obligations.NothingOfferedNoStep : Prop := ∀ s : State, s.events = [] → step s = .fault .noTransaction

/-- R133: what RST leaves, from any state; LW, LH, LT, LD, SR, CUR and NXT are unspecified there and not stated here.
RST as an event between transactions is the model's choice (log 7), and R20 marks PREFIX's value as general knowledge
(log 10). -/
def Obligations.ResetPulseRestoresState : Prop :=
  ∀ (s : State) (rest : List Event), s.events = .reset :: rest →
    ∃ t, step s = .next t ∧ t.ctrlDither = true ∧ t.widthW = 384#16 ∧ t.heightH = 0#16 ∧ t.thresholdT = 128#8 ∧
      t.prefixWord = 0x0030761D#32 ∧ t.doneEn = false ∧ t.errEn = false ∧ t.err = 0#5 ∧ t.seq = .idle ∧
      t.x = 0#16 ∧ t.y = 0#16 ∧ t.outFifo = [] ∧ t.irq = false ∧ t.params = s.params ∧ t.events = rest

/-- R133's table and 95_test_vectors.md RR-1 to RR-11, for every legal pair of parameters: what each register reads after
reset. PREFIX's value is general knowledge (R20, log 10); the machine's own parameters are any (log 1). -/
def Obligations.ResetRegistersRead : Prop :=
  State.reset = State.resetWith Config.params ∧
  ∀ p : Params,
    let s := State.resetWith p
    exec .rdCtrl s = .next { s with ret := some 1#32 } ∧
    exec .rdWidth s = .next { s with ret := some 0x180#32 } ∧
    exec .rdHeight s = .next { s with ret := some 0#32 } ∧
    exec .rdThreshold s = .next { s with ret := some 0x80#32 } ∧
    exec .rdPrefix s = .next { s with ret := some 0x0030761D#32 } ∧
    exec .rdIrqEn s = .next { s with ret := some 0#32 } ∧
    exec .rdCmd s = .next { s with ret := some 0#32 } ∧
    exec .rdStatus s = .next { s with ret := some 0#32 } ∧
    exec .rdErr s = .next { s with ret := some 0#32 } ∧
    exec .rdPos s = .next { s with ret := some 0#32 } ∧
    exec .rdCaps s = .next { s with ret := some (BitVec.ofNat 32 (p.ofifoDepth * 65536 + p.maxWidth)) }

/-! ### Register reads -/

/-- R65 to R70: the encoding of each read, the programmed value it returns, and that nothing else changes, in every
state. -/
def Obligations.ConfigRegisterReads : Prop :=
  decode 0x000000000000#48 = .ok .rdCtrl ∧ decode 0x000400000000#48 = .ok .rdWidth ∧
  decode 0x000800000000#48 = .ok .rdHeight ∧ decode 0x000C00000000#48 = .ok .rdThreshold ∧
  decode 0x001000000000#48 = .ok .rdPrefix ∧ decode 0x001400000000#48 = .ok .rdIrqEn ∧
  ∀ s : State,
    exec .rdCtrl s = .next { s with ret := some (BitVec.ofNat 32 s.ctrlDither.toNat) } ∧
    exec .rdWidth s = .next { s with ret := some (BitVec.ofNat 32 s.widthW.toNat) } ∧
    exec .rdHeight s = .next { s with ret := some (BitVec.ofNat 32 s.heightH.toNat) } ∧
    exec .rdThreshold s = .next { s with ret := some (BitVec.ofNat 32 s.thresholdT.toNat) } ∧
    exec .rdPrefix s = .next { s with ret := some s.prefixWord } ∧
    exec .rdIrqEn s = .next { s with ret := some (BitVec.ofNat 32 (2 * s.errEn.toNat + s.doneEn.toNat)) }

/-- R71, R73, R74, R75: the encoding of each read, the value it returns, and that nothing else changes; a finished frame's
position reads as LH above 0 (R74, under the invariant). -/
def Obligations.CmdErrPosCapsReads : Prop :=
  decode 0x001800000000#48 = .ok .rdCmd ∧ decode 0x002000000000#48 = .ok .rdErr ∧
  decode 0x002400000000#48 = .ok .rdPos ∧ decode 0x002800000000#48 = .ok .rdCaps ∧
  ∀ s : State,
    exec .rdCmd s = .next { s with ret := some 0#32 } ∧
    exec .rdErr s = .next { s with ret := some (BitVec.ofNat 32 s.err.toNat) } ∧
    exec .rdPos s = .next { s with ret := some (BitVec.ofNat 32 (s.y.toNat * 65536 + s.x.toNat)) } ∧
    exec .rdCaps s =
      .next { s with ret := some (BitVec.ofNat 32 (s.params.ofifoDepth * 65536 + s.params.maxWidth)) } ∧
    (s.Inv → (s.seq = .drain ∨ s.seq = .done) →
      exec .rdPos s = .next { s with ret := some (BitVec.ofNat 32 (s.lh.toNat * 65536)) })

/-- R23, R72: the STATUS word, field by field, with R33's IN_READY and OUT_VALID and R125's IRQ written out; reading it
changes nothing. -/
def Obligations.StatusRead : Prop :=
  decode 0x001C00000000#48 = .ok .rdStatus ∧
  ∀ s : State, s.outFifo.length ≤ s.params.ofifoDepth →
    ∃ v : Word, exec .rdStatus s = .next { s with ret := some v } ∧
      v.toNat =
        (match s.seq with | .idle => 0 | .run => 1 | .drain => 2 | .done => 3 | .aborted => 4) +
        (if s.seq = .run ∧ s.outFifo.length < s.params.ofifoDepth then 8 else 0) +
        (if 0 < s.outFifo.length then 16 else 0) +
        (if (s.doneEn = true ∧ s.seq = .done) ∨ (s.errEn = true ∧ s.err ≠ 0#5) then 32 else 0) +
        256 * s.outFifo.length

/-- R76, R88: an unmapped or unaligned offset. A read returns 0 and sets BADADDR, a write sets BADADDR, and nothing else
changes, whatever the offset and the data. -/
def Obligations.UnmappedAccesses : Prop :=
  (∀ o : Byte, ¬ (o.toNat % 4 = 0 ∧ o.toNat ≤ 0x28) →
    decode (0x00#8 ++ o ++ 0#32) = .ok (.rdUnmapped o) ∧
    ∀ v : Word, decode (0x20#8 ++ o ++ v) = .ok (.wrUnmapped o v)) ∧
  ∀ (o : Byte) (v : Word) (s : State),
    exec (.rdUnmapped o) s = .next { s with err := s.err ||| 0b00100#5, ret := some 0#32 } ∧
    exec (.wrUnmapped o v) s = .next { s with err := s.err ||| 0b00100#5, ret := none }

/-! ### Register writes -/

/-- R77 to R83: the encoding of each write to a read/write register; a legal value is stored, a value with a reserved bit
set is rejected as a whole with BADWRITE, and nothing else changes, in every state. -/
def Obligations.RwRegisterWrites : Prop :=
  ∀ (v : Word) (s : State),
    decode (0x2000#16 ++ v) = .ok (.wrCtrl v) ∧ decode (0x2004#16 ++ v) = .ok (.wrWidth v) ∧
    decode (0x2008#16 ++ v) = .ok (.wrHeight v) ∧ decode (0x200C#16 ++ v) = .ok (.wrThreshold v) ∧
    decode (0x2010#16 ++ v) = .ok (.wrPrefix v) ∧ decode (0x2014#16 ++ v) = .ok (.wrIrqEn v) ∧
    exec (.wrCtrl v) s = .next (if v.toNat ≤ 1 then { s with ctrlDither := decide (v.toNat = 1), ret := none }
      else { s with err := s.err ||| 0b00010#5, ret := none }) ∧
    exec (.wrWidth v) s = .next (if v.toNat ≤ 0xFFFF then { s with widthW := BitVec.ofNat 16 v.toNat, ret := none }
      else { s with err := s.err ||| 0b00010#5, ret := none }) ∧
    exec (.wrHeight v) s = .next (if v.toNat ≤ 0xFFFF then { s with heightH := BitVec.ofNat 16 v.toNat, ret := none }
      else { s with err := s.err ||| 0b00010#5, ret := none }) ∧
    exec (.wrThreshold v) s = .next (if v.toNat ≤ 255 then { s with thresholdT := BitVec.ofNat 8 v.toNat, ret := none }
      else { s with err := s.err ||| 0b00010#5, ret := none }) ∧
    exec (.wrPrefix v) s = .next { s with prefixWord := v, ret := none } ∧
    exec (.wrIrqEn v) s = .next (if v.toNat ≤ 3 then
        { s with doneEn := decide (v.toNat % 2 = 1), errEn := decide (2 ≤ v.toNat), ret := none }
      else { s with err := s.err ||| 0b00010#5, ret := none })

/-- R85 to R87, and R84's pseudocode: a write to STATUS, ERR, POS or CAPS sets BADWRITE, and nothing else changes, whatever
the value. What STATUS reads after such a write is WriteStatusLeavesStatus. -/
def Obligations.ReadOnlyRegisterWrites : Prop :=
  ∀ (v : Word) (s : State),
    decode (0x201C#16 ++ v) = .ok (.wrStatus v) ∧ decode (0x2020#16 ++ v) = .ok (.wrErr v) ∧
    decode (0x2024#16 ++ v) = .ok (.wrPos v) ∧ decode (0x2028#16 ++ v) = .ok (.wrCaps v) ∧
    exec (.wrStatus v) s = .next { s with err := s.err ||| 0b00010#5, ret := none } ∧
    exec (.wrErr v) s = .next { s with err := s.err ||| 0b00010#5, ret := none } ∧
    exec (.wrPos v) s = .next { s with err := s.err ||| 0b00010#5, ret := none } ∧
    exec (.wrCaps v) s = .next { s with err := s.err ||| 0b00010#5, ret := none }

/-! ### Commands -/

/-- R89: NOP changes nothing, in every state (`ret` is the model's own, log 4). -/
def Obligations.NopChangesNothing : Prop :=
  decode 0x201800000000#48 = .ok .cmdNop ∧ ∀ s : State, exec .cmdNop s = .next { s with ret := none }

/-- R90, R91, R116: START. BUSY is checked first, then PARAM, and a refused START changes nothing but ERR; a performed
one latches the parameters, clears the position, SR and both line buffers (every entry reads 0), puts the 8 header bytes
into OF and enters RUN. Nothing else changes. -/
def Obligations.StartCommand : Prop :=
  decode 0x201800000001#48 = .ok .cmdStart ∧
  ∀ s : State,
    (Active s → exec .cmdStart s = .next { s with err := s.err ||| 0b10000#5, ret := none }) ∧
    (¬ Active s → BadSize s → exec .cmdStart s = .next { s with err := s.err ||| 0b01000#5, ret := none }) ∧
    (¬ Active s → ¬ BadSize s →
      ∃ t, exec .cmdStart s = .next t ∧ (∀ i, lineGet t.cur i = 0#16 ∧ lineGet t.nxt i = 0#16) ∧
        t = { s with
          lw := s.widthW
          lh := s.heightH
          lt := s.thresholdT
          ld := s.ctrlDither
          x := 0#16
          y := 0#16
          sr := 0#8
          cur := t.cur
          nxt := t.nxt
          seq := .run
          ret := none
          outFifo := [s.prefixWord.extractLsb' 0 8, s.prefixWord.extractLsb' 8 8, s.prefixWord.extractLsb' 16 8,
            s.prefixWord.extractLsb' 24 8,
            BitVec.ofNat 8 ((s.widthW.toNat + 7) / 8 % 256), BitVec.ofNat 8 ((s.widthW.toNat + 7) / 8 / 256),
            BitVec.ofNat 8 (s.heightH.toNat % 256), BitVec.ofNat 8 (s.heightH.toNat / 256)] })

/-- R92: ABORT empties OF, clears SR and enters ABORTED from RUN and DRAIN, and has no effect in the other states; the
position stays. -/
def Obligations.AbortCommand : Prop :=
  decode 0x201800000002#48 = .ok .cmdAbort ∧
  ∀ s : State,
    (Active s → exec .cmdAbort s = .next { s with outFifo := [], sr := 0#8, seq := .aborted, ret := none }) ∧
    (¬ Active s → exec .cmdAbort s = .next { s with ret := none })

/-- R93: CLEAR empties ERR; DONE and ABORTED become IDLE; in the other states the sequencer and the frame stay. -/
def Obligations.ClearCommand : Prop :=
  decode 0x201800000003#48 = .ok .cmdClear ∧
  ∀ s : State,
    ((s.seq = .done ∨ s.seq = .aborted) → exec .cmdClear s = .next { s with err := 0#5, seq := .idle, ret := none }) ∧
    (¬ (s.seq = .done ∨ s.seq = .aborted) → exec .cmdClear s = .next { s with err := 0#5, ret := none })

/-- R56, R94: any other value written to CMD sets BADCMD, and nothing else changes. -/
def Obligations.ReservedCommand : Prop :=
  (∀ v : Word, v ≠ 0#32 → v ≠ 1#32 → v ≠ 2#32 → v ≠ 3#32 → decode (0x2018#16 ++ v) = .ok (.cmdReserved v)) ∧
  ∀ (v : Word) (s : State), exec (.cmdReserved v) s = .next { s with err := s.err ||| 0b00001#5, ret := none }

/-! ### Pixel push -/

/-- R96, R124: a push is taken exactly when IN_READY; when it is taken, it is one step to a next state. That a push that
is not taken is a stop named pushWaits is the model's rendering of "no transfer" (log 5). -/
def Obligations.PushTakenExactlyWhenReady : Prop :=
  (∀ smp : Byte, decode (0x6000000000#40 ++ smp) = .ok (.pixPush smp)) ∧
  ∀ (s : State) (smp : Byte),
    (Ready s → ∃ t, exec (.pixPush smp) s = .next t) ∧ (¬ Ready s → exec (.pixPush smp) s = .fault .pushWaits)

/-- R98, R99, R100, R110, R111: the class of the pixel is written to bit 7 - (X mod 8) of SR; the byte enters OF at its
tail, and SR is cleared, exactly when the pixel ends a byte or ends its row; else SR keeps it and OF stays. -/
def Obligations.PushPacksPixel : Prop :=
  ∀ (s : State) (smp : Byte), Ready s →
    ∃ (t : State) (b : Byte), exec (.pixPush smp) s = .next t ∧
      (∀ k, k < 8 → b.getLsbD k =
        if k = 7 - s.x.toNat % 8 then decide (correctedValue s smp < (s.lt.toNat : Int)) else s.sr.getLsbD k) ∧
      if s.x.toNat % 8 = 7 ∨ s.x.toNat + 1 = s.lw.toNat then t.outFifo = s.outFifo ++ [b] ∧ t.sr = 0#8
      else t.outFifo = s.outFifo ∧ t.sr = b

/-- R101, R103, R104, R106, R99: the shares of the pixel's error are added to the entries of its neighbours inside the
image, every other entry keeps its value, under thresholding no entry changes; then the position advances, and at the end
of a row CUR takes NXT's contents, NXT is zeroed, and the last pixel of the frame enters DRAIN. Under the invariant. -/
def Obligations.PushDiffusesAndAdvances : Prop :=
  ∀ (s : State) (smp : Byte), s.Inv → Ready s →
    ∃ t, exec (.pixPush smp) s = .next t ∧
      if s.x.toNat + 1 = s.lw.toNat then
        (∀ i, (lineGet t.cur i).toInt = nxtAfter s (passedError s smp) i ∧ lineGet t.nxt i = 0#16) ∧
        t.x.toNat = 0 ∧ t.y.toNat = s.y.toNat + 1 ∧
        t.seq = (if s.y.toNat + 1 = s.lh.toNat then .drain else .run)
      else
        (∀ i, (lineGet t.cur i).toInt = curAfter s (passedError s smp) i ∧
          (lineGet t.nxt i).toInt = nxtAfter s (passedError s smp) i) ∧
        t.x.toNat = s.x.toNat + 1 ∧ t.y = s.y ∧ t.seq = .run

/-- R96: a push that is taken writes no programmed register, no latched parameter and no flag. -/
def Obligations.PushFrame : Prop :=
  ∀ (s t : State) (smp : Byte), exec (.pixPush smp) s = .next t →
    t = { s with
      x := t.x
      y := t.y
      sr := t.sr
      cur := t.cur
      nxt := t.nxt
      outFifo := t.outFifo
      seq := t.seq
      ret := none }

/-- R102: share(e, w) is e · w / 16 truncated toward zero; it has the sign of e or is 0; its magnitude is at most
|e| · w / 16; and the four shares of one error add up to at most |e|; with R102's three examples. -/
def Obligations.ShareTruncatesTowardZero : Prop :=
  ∀ (e : Int) (w : Nat),
    share e w = (e * w).tdiv 16 ∧ share e w = e.sign * ((e.natAbs * w / 16 : Nat) : Int) ∧
    |share e w| * 16 ≤ |e| * w ∧
    |share e 7 + share e 3 + share e 5 + share e 1| ≤ |e| ∧
    share 100 7 = 43 ∧ share (-1) 7 = 0 ∧ share (-62) 7 = -27

/-! ### Output pop -/

/-- R117: a pop of a non-empty OF returns its head byte, zero-extended, removes it, and makes the frame DONE exactly when
it empties OF in DRAIN; nothing else changes. -/
def Obligations.PopDeliversHead : Prop :=
  decode 0x800000000000#48 = .ok .outPop ∧
  ∀ (s : State) (b : Byte) (rest : List Byte), s.outFifo = b :: rest →
    exec .outPop s = .next { s with
      outFifo := rest
      seq := if s.seq = .drain ∧ rest = [] then .done else s.seq
      ret := some (BitVec.ofNat 32 b.toNat) }

/-- R117, R124: a pop of an empty OF is not taken. The stop named popWaits is the model's rendering of "no transfer"
(log 5). -/
def Obligations.PopWaitsOnEmptyFifo : Prop := ∀ s : State, s.outFifo = [] → exec .outPop s = .fault .popWaits

/-- R139, R124: after a START that is refused outside a frame, a push waits. -/
def Obligations.PushWaitsAfterRefusedStart : Prop :=
  ∀ (s : State) (smp : Byte), ¬ Active s → BadSize s →
    ∃ t, exec .cmdStart s = .next t ∧ exec (.pixPush smp) t = .fault .pushWaits

/-! ### Interrupt and errors -/

/-- R125: the level, and what lowers it: CLEAR, clearing the enables, a performed START from DONE (for the completion
source), and reset. -/
def Obligations.IrqLevel : Prop :=
  (∀ s : State, s.irq = true ↔ (s.doneEn = true ∧ s.seq = .done) ∨ (s.errEn = true ∧ s.err ≠ 0#5)) ∧
  (∀ s : State, ∃ t, exec .cmdClear s = .next t ∧ t.irq = false) ∧
  (∀ s : State, ∃ t, exec (.wrIrqEn 0#32) s = .next t ∧ t.irq = false) ∧
  (∀ s : State, s.seq = .done → ¬ BadSize s → ∃ t, exec .cmdStart s = .next t ∧
    (t.irq = true ↔ s.errEn = true ∧ s.err ≠ 0#5)) ∧
  (∀ p : Params, (State.resetWith p).irq = false)

/-- R121, R24: for every transaction but CLEAR, each ERR bit is set afterwards exactly when it was set or the transaction
raises that cause under the condition of R121's table. -/
def Obligations.ErrorCauses : Prop :=
  ∀ (i : Instr) (s t : State), exec i s = .next t → i ≠ .cmdClear →
    ∀ k, k < 5 → (t.err.getLsbD k = true ↔ s.err.getLsbD k = true ∨ raisesCause i s k)

/-- R123: one transaction sets at most one ERR bit. -/
def Obligations.OneErrorBitPerTransaction : Prop :=
  ∀ (i : Instr) (s t : State), exec i s = .next t →
    ∀ j k, t.err.getLsbD j = true → s.err.getLsbD j = false → t.err.getLsbD k = true → s.err.getLsbD k = false → j = k

/-- R120, R122: errors are precise. A transaction that sets an ERR bit makes no other change (its return value apart). -/
def Obligations.ErrorsArePrecise : Prop :=
  ∀ (i : Instr) (s t : State), exec i s = .next t →
    ∀ k, t.err.getLsbD k = true → s.err.getLsbD k = false → t = { s with err := t.err, ret := t.ret }

/-! ### Rules of the whole machine -/

/-- R64: every transaction of the register port is taken at once in every state; none but a command changes STATE, moves
a sample or an output byte, or touches the frame in progress. -/
def Obligations.RegisterTransactionsTakenAtOnce : Prop :=
  ∀ (i : Instr) (s : State), i ≠ .outPop → (∀ smp, i ≠ .pixPush smp) →
    ∃ t, exec i s = .next t ∧ (¬ IsCommand i → t.seq = s.seq ∧ frameState t = frameState s)

/-- R27: STATE changes only by these transitions. -/
def Obligations.SequencerTransitions : Prop :=
  ∀ (i : Instr) (s t : State), exec i s = .next t → t.seq ≠ s.seq →
    (i = .cmdStart ∧ (s.seq = .idle ∨ s.seq = .done ∨ s.seq = .aborted) ∧ t.seq = .run) ∨
    (∃ smp, i = .pixPush smp ∧ s.seq = .run ∧ t.seq = .drain ∧
      s.x.toNat + 1 = s.lw.toNat ∧ s.y.toNat + 1 = s.lh.toNat) ∨
    (i = .outPop ∧ s.seq = .drain ∧ t.seq = .done ∧ t.outFifo = []) ∨
    (i = .cmdAbort ∧ Active s ∧ t.seq = .aborted) ∨
    (i = .cmdClear ∧ (s.seq = .done ∨ s.seq = .aborted) ∧ t.seq = .idle)

/-- R28, R138: only a performed START writes the latched parameters: no other transaction does, and no START that is refused,
for an active frame or for its parameters (R90). -/
def Obligations.LatchedParametersHold : Prop :=
  ∀ (i : Instr) (s t : State), exec i s = .next t → (i ≠ .cmdStart ∨ Active s ∨ BadSize s) →
    t.lw = s.lw ∧ t.lh = s.lh ∧ t.lt = s.lt ∧ t.ld = s.ld

/-- R16 to R21, R138: a programmed register holds its value until a legal write to it, and then holds that write's. -/
def Obligations.ConfigRegistersHoldUntilWritten : Prop :=
  ∀ (i : Instr) (s t : State), exec i s = .next t →
    (t.ctrlDither ≠ s.ctrlDither → ∃ v, i = .wrCtrl v ∧ v.toNat ≤ 1 ∧ t.ctrlDither.toNat = v.toNat) ∧
    (t.widthW ≠ s.widthW → ∃ v, i = .wrWidth v ∧ t.widthW.toNat = v.toNat) ∧
    (t.heightH ≠ s.heightH → ∃ v, i = .wrHeight v ∧ t.heightH.toNat = v.toNat) ∧
    (t.thresholdT ≠ s.thresholdT → ∃ v, i = .wrThreshold v ∧ t.thresholdT.toNat = v.toNat) ∧
    (t.prefixWord ≠ s.prefixWord → i = .wrPrefix t.prefixWord) ∧
    ((t.doneEn ≠ s.doneEn ∨ t.errEn ≠ s.errEn) →
      ∃ v, i = .wrIrqEn v ∧ 2 * t.errEn.toNat + t.doneEn.toNat = v.toNat)

/-- R32, R116, R111, R117, R92: OF is a queue. Its contents change only by a performed START, after which they are the 8
header bytes, by one byte at the tail in a push, by the head in a pop, and by ABORT, which empties it. -/
def Obligations.OutFifoIsAQueue : Prop :=
  ∀ (i : Instr) (s t : State), exec i s = .next t → t.outFifo ≠ s.outFifo →
    (i = .cmdStart ∧ ¬ Active s ∧ ¬ BadSize s ∧
      t.outFifo = [s.prefixWord.extractLsb' 0 8, s.prefixWord.extractLsb' 8 8, s.prefixWord.extractLsb' 16 8,
        s.prefixWord.extractLsb' 24 8,
        BitVec.ofNat 8 ((s.widthW.toNat + 7) / 8 % 256), BitVec.ofNat 8 ((s.widthW.toNat + 7) / 8 / 256),
        BitVec.ofNat 8 (s.heightH.toNat % 256), BitVec.ofNat 8 (s.heightH.toNat / 256)]) ∨
    (∃ smp b, i = .pixPush smp ∧ t.outFifo = s.outFifo ++ [b]) ∨
    (∃ b, i = .outPop ∧ s.outFifo = b :: t.outFifo ∧ t.ret = some (b.setWidth 32)) ∨
    (i = .cmdAbort ∧ Active s ∧ t.outFifo = [])

/-- R15, R29, R95: the position moves only at START, to (0, 0), and at a push, to the next pixel in row-major order. -/
def Obligations.PositionFollowsScanOrder : Prop :=
  ∀ (i : Instr) (s t : State), s.Inv → exec i s = .next t → (t.x ≠ s.x ∨ t.y ≠ s.y) →
    (i = .cmdStart ∧ t.x = 0#16 ∧ t.y = 0#16) ∨
    (∃ smp, i = .pixPush smp ∧
      t.y.toNat * s.lw.toNat + t.x.toNat = s.y.toNat * s.lw.toNat + s.x.toNat + 1 ∧ t.x.toNat < s.lw.toNat)

/-- R42: a read of a mapped register changes nothing, and two equal writes to a read/write register leave the same state
as one. -/
def Obligations.ReadsQuietWritesIdempotent : Prop :=
  (∀ (i : Instr) (s : State), MappedRead i → ∃ v, exec i s = .next { s with ret := some v }) ∧
  (∀ (i : Instr) (s : State), RwWrite i → ∃ t, exec i s = .next t ∧ exec i t = .next t)

/-- R26, R8: the parameters never change, at any step, and CAPS reads them. -/
def Obligations.ParametersConstant : Prop :=
  ∀ s t : State, step s = .next t → t.params = s.params

/-! ### Invariants -/

/-- The invariant holds after reset, whatever the parameters. It does not rest on the values the model chose for the
unspecified items (log 2): only the buffers' canonical form, the model's own (log 8), is asked of them there. -/
def Obligations.InvariantHoldsAtReset : Prop := State.reset.Inv ∧ ∀ p : Params, (State.resetWith p).Inv

/-- Every step keeps the invariant: the FIFO's bound, its emptiness outside a frame, the position, the size of the frame,
the canonical form and the range of the line buffers, the unwritten bits of SR (R27, R29, R31, R32, R45, R105, R106,
R112). -/
def Obligations.StepKeepsInvariant : Prop := ∀ s t : State, s.Inv → step s = .next t → t.Inv

/-- R105: in a dithered frame every entry of CUR and NXT, every corrected value and every error is in range. -/
def Obligations.ErrorRange : Prop :=
  ∀ (s : State) (smp : Byte), s.Inv → s.seq = .run → s.ld = true →
    (∀ i, |(lineGet s.cur i).toInt| ≤ 255 ∧ |(lineGet s.nxt i).toInt| ≤ 255) ∧
    -255 ≤ correctedValue s smp ∧ correctedValue s smp ≤ 510 ∧
    -255 ≤ passedError s smp ∧ passedError s smp ≤ 255

/-- R140: an active frame can always go on. In RUN every push is taken, or OF is full and a pop is taken; in DRAIN a pop
is taken and shortens OF. -/
def Obligations.ActiveFrameCanProgress : Prop :=
  ∀ s : State, s.Inv →
    (s.seq = .run → (∀ smp, ∃ t, exec (.pixPush smp) s = .next t) ∨
      (s.outFifo.length = s.params.ofifoDepth ∧ ∃ t, exec .outPop s = .next t ∧ t.seq = .run)) ∧
    (s.seq = .drain → ∃ t, exec .outPop s = .next t ∧ t.outFifo.length + 1 = s.outFifo.length ∧
      (t.seq = .done ↔ t.outFifo = []))

/-! ### The frame -/

/-- R118, R58, R95 to R104, R109 to R113: from a START that is performed, through any transactions that are taken while
the frame is active, to DONE, the samples pushed are exactly LW × LH and the bytes delivered are, in order, exactly the
frame of R58 for the parameters at START and the pixels' classes, computed apart from the machine by each pixel pulling
the shares of its visited neighbours. -/
def Obligations.DeliveredBytesAreTheFrame : Prop :=
  ∀ (s t u : State) (is : List Instr) (bs : List Byte), s.startAccepted = true → exec .cmdStart s = .next t →
    activeRun is t = some (bs, u) → u.seq = .done →
    (pushedSamples is).length = s.widthW.toNat * s.heightH.toNat ∧ bs = frameFor s (pushedSamples is)

/-- R118, R47: before the frame is complete, what has been delivered and what waits in OF is an initial part of the frame
that any completion of the samples gives, and some byte of it is not delivered yet: DONE does not come before the last. -/
def Obligations.DeliveredBytesArePrefix : Prop :=
  ∀ (s t u : State) (is : List Instr) (bs more : List Byte), s.startAccepted = true → exec .cmdStart s = .next t →
    activeRun is t = some (bs, u) → Active u →
    (pushedSamples is ++ more).length = s.widthW.toNat * s.heightH.toNat →
    bs ++ u.outFifo <+: frameFor s (pushedSamples is ++ more) ∧
      bs.length < (frameFor s (pushedSamples is ++ more)).length

/-- R140, R136: for every START that is performed and every sequence of LW × LH samples, some run of taken transactions
pushes exactly these and reaches DONE. -/
def Obligations.EveryFrameCanComplete : Prop :=
  ∀ (s : State) (samples : List Byte), s.startAccepted = true →
    samples.length = s.widthW.toNat * s.heightH.toNat →
    ∃ (t u : State) (is : List Instr) (bs : List Byte), exec .cmdStart s = .next t ∧
      activeRun is t = some (bs, u) ∧ u.seq = .done ∧ pushedSamples is = samples

/-- R107, R35: the bytes of a frame depend on DITHER, W, H, T and PREFIX at START and on the samples alone: not on how
pushes, pops and register transactions interleave, nor on OFIFO_DEPTH, nor on anything else in the state. -/
def Obligations.FrameBytesIndependentOfInterleaving : Prop :=
  ∀ (s₁ s₂ t₁ t₂ u₁ u₂ : State) (is₁ is₂ : List Instr) (bs₁ bs₂ : List Byte),
    s₁.startAccepted = true → s₂.startAccepted = true →
    s₁.ctrlDither = s₂.ctrlDither → s₁.widthW = s₂.widthW → s₁.heightH = s₂.heightH →
    s₁.thresholdT = s₂.thresholdT → s₁.prefixWord = s₂.prefixWord →
    exec .cmdStart s₁ = .next t₁ → exec .cmdStart s₂ = .next t₂ →
    activeRun is₁ t₁ = some (bs₁, u₁) → activeRun is₂ t₂ = some (bs₂, u₂) → u₁.seq = .done → u₂.seq = .done →
    pushedSamples is₁ = pushedSamples is₂ → bs₁ = bs₂

/-- R58, R113: where each byte of the reference frame stands, and how many there are. -/
def Obligations.FrameLayout : Prop :=
  ∀ (s : State) (samples : List Byte),
    let w := s.widthW.toNat
    let h := s.heightH.toNat
    let f := frameFor s samples
    f.length = 8 + (w + 7) / 8 * h ∧
    (∀ i, i < 4 → f.getD i 0#8 = s.prefixWord.extractLsb' (8 * i) 8) ∧
    (f.getD 4 0#8).toNat + 256 * (f.getD 5 0#8).toNat = (w + 7) / 8 ∧
    (f.getD 6 0#8).toNat + 256 * (f.getD 7 0#8).toNat = h ∧
    (∀ y j b, y < h → j < (w + 7) / 8 → b < 8 →
      (f.getD (8 + y * ((w + 7) / 8) + j) 0#8).getLsbD (7 - b) =
        (decide (8 * j + b < w) && blackAt w (classify w s.thresholdT.toNat s.ctrlDither samples) (8 * j + b) y))

/-- R114: packing is lossless. Unpacking a packed image gives it back, and a bitmap of BPL · LH bytes whose padding bits
are 0 is the packing of what it unpacks to. -/
def Obligations.PackUnpackRoundTrip : Prop :=
  ∀ (w h : Nat),
    (∀ (black : Nat → Nat → Bool) (x y : Nat), x < w → y < h →
      unpackPixel w (packedBitmap w h black) x y = black x y) ∧
    (∀ bitmap : List Byte, bitmap.length = (w + 7) / 8 * h →
      (∀ y j b, y < h → j < (w + 7) / 8 → b < 8 → w ≤ 8 * j + b →
        (bitmap.getD (y * ((w + 7) / 8) + j) 0#8).getLsbD (7 - b) = false) →
      packedBitmap w h (unpackPixel w bitmap) = bitmap)

/-- R109, R112, R115: BPL is the ceiling of w / 8 and fits the header field; at 8k it is k and no bit of a row is padding;
at 8k + 1 it is k + 1 and the last byte of each row has bits 6:0 equal to 0. -/
def Obligations.BytesPerLineBoundary : Prop :=
  (∀ w, 1 ≤ w → w ≤ 65535 → 1 ≤ bytesPerLine w ∧ bytesPerLine w ≤ 8192 ∧ w ≤ 8 * bytesPerLine w ∧
    8 * bytesPerLine w < w + 8) ∧
  (∀ k (black : Nat → Nat → Bool) (y : Nat), bytesPerLine (8 * k) = k ∧
    ∀ j b, j < k → b < 8 → (packedByte (8 * k) black y j).getLsbD (7 - b) = black (8 * j + b) y) ∧
  (∀ k (black : Nat → Nat → Bool) (y : Nat), bytesPerLine (8 * k + 1) = k + 1 ∧
    ∀ b, b < 7 → (packedByte (8 * k + 1) black y k).getLsbD b = false)

/-- R108: dithering a flat extreme agrees with thresholding. Samples all 0 under LT ≥ 1 are all black with no error, and
samples all 255 are all white with no error, under both policies. -/
def Obligations.FlatFramesCarryNoError : Prop :=
  ∀ (w lt n : Nat) (ld : Bool),
    (1 ≤ lt → classify w lt ld (List.replicate n 0#8) = List.replicate n (true, 0)) ∧
    (lt ≤ 255 → classify w lt ld (List.replicate n 255#8) = List.replicate n (false, 0))

/-! ### Assembler -/

/-- R62, R53: the TD of every assembler line decodes to the transaction the line names, found from R55's table and R56's
codes and not from the decoder; that is a transaction, and the one the model gives the line. -/
def Obligations.AssemblerLinesDecode : Prop :=
  ∀ l : AsmLine, decode l.td = .ok (namedBy l) ∧ (namedBy l).Wf ∧ l.instr = namedBy l

/-- R62: the text of every line is read back as that line, and a comment after it changes nothing. Where spaces may stand
is the model's choice (log 11). -/
def Obligations.AssemblerTextReadsBack : Prop :=
  ∀ (l : AsmLine) (comment : List Char), readLine l.text = some (some (.line l)) ∧
    readLine (l.text ++ ';' :: comment) = some (some (.line l))

/-- R63, R135: the pseudo-instruction `frame W, H, T, D`, issued with legal values while no frame is active, runs in five
steps to RUN of a frame with these parameters, raises nothing, and leaves nothing offered. -/
def Obligations.FramePseudoStartsFrame : Prop :=
  ∀ (s : State) (w h t d : Word), ¬ Active s → 1 ≤ w.toNat → w.toNat ≤ s.params.maxWidth → 1 ≤ h.toNat →
    h.toNat ≤ 65535 → t.toNat ≤ 255 → d.toNat ≤ 1 →
    ∃ u : State, Sys2Proof.core.run 5 { s with events := programEvents (Pseudo.expand (.frame w h t d)) } = .next u ∧
      u.seq = .run ∧ u.lw.toNat = w.toNat ∧ u.lh.toNat = h.toNat ∧ u.lt.toNat = t.toNat ∧ u.ld.toNat = d.toNat ∧
      u.err = s.err ∧ u.events = []

/-- R63: a poll is reads of the register it names. With v what that read returns at s, the poll ends, for every positive
bound on its reads, exactly when v meets the mask; it then leaves s but for the return value v. The bound, and `none` where
the reads run out, are the model's choice (log 11). -/
def Obligations.PollOnlyReads : Prop :=
  ∀ (n : RegName) (mask value : Word) (s : State),
    ∃ v, exec (readOf n) s = .next { s with ret := some v } ∧
      ∀ tries, poll n mask value tries s =
        if 0 < tries ∧ v &&& mask = value then some { s with ret := some v } else none

/-! ### STATUS after a write to it -/

/-- R84, R23, R125: what STATUS reads before and after a write to it. Every bit but IRQ is as before, and so is the whole
word while ERR_EN = 0; with ERR_EN = 1 the BADWRITE that the write raises holds IRQ at 1. That last clause is the model's
reading of R84 beside R125 (log 18). -/
def Obligations.WriteStatusLeavesStatus : Prop :=
  ∀ (v : Word) (s : State), ∃ (t : State) (a b : Word),
    exec .rdStatus s = .next { s with ret := some a } ∧ exec (.wrStatus v) s = .next t ∧
    exec .rdStatus t = .next { t with ret := some b } ∧
    (∀ k, k ≠ 5 → b.getLsbD k = a.getLsbD k) ∧ (s.errEn = false → b = a) ∧ (s.errEn = true → b.getLsbD 5 = true)
end

