-- ==== Sys2Proof/Laws/AsmText.lean ====
section
/-! SUPPORT. Reading back the pieces of an assembler line: numbers, names, operands, and a whole line of a mnemonic with
one or two operands (30_encoding.md R62). -/

namespace Sys2Proof.Machine

theorem hexDigitValue_hexDigit : ∀ n, n < 16 → hexDigitValue (hexDigit n) = some n := by decide

theorem hexDigit_ne : ∀ n, n < 16 → hexDigit n ≠ ' ' ∧ hexDigit n ≠ ',' ∧ hexDigit n ≠ ';' := by decide

theorem readByte_writeByte (b : Byte) : readByte (writeByte b) = some b := by
  have := b.isLt
  have h1 : b.toNat / 16 < 16 := by omega
  have h2 : b.toNat % 16 < 16 := by omega
  have h3 : (0 * 16 + b.toNat / 16) * 16 + b.toNat % 16 = b.toNat := by omega
  simp only [readByte, writeByte, readNumber, digitsValue, hexDigitValue_hexDigit _ h1, hexDigitValue_hexDigit _ h2]
  simp only [h1, h2, h3]
  simp [b.isLt]

theorem readWord_writeWord (v : Word) : readWord (writeWord v) = some v := by
  have := v.isLt
  have h0 : v.toNat / 268435456 < 16 := by omega
  have hm : ∀ n, n % 16 < 16 := fun n => Nat.mod_lt _ (by omega)
  have h3 : (((((((0 * 16 + v.toNat / 268435456) * 16 + v.toNat / 16777216 % 16) * 16 + v.toNat / 1048576 % 16) * 16
      + v.toNat / 65536 % 16) * 16 + v.toNat / 4096 % 16) * 16 + v.toNat / 256 % 16) * 16 + v.toNat / 16 % 16) * 16
      + v.toNat % 16 = v.toNat := by omega
  simp only [readWord, writeWord, readNumber, digitsValue, hexDigitValue_hexDigit _ h0, hexDigitValue_hexDigit _ (hm _)]
  simp only [h0, hm, if_true, h3]
  simp [this]

theorem ofText_text (n : RegName) : RegName.ofText n.text = some n := by cases n <;> rfl

/-- A number is no register's name. -/
theorem ofText_writeByte (b : Byte) : RegName.ofText (writeByte b) = none := by
  simp [RegName.ofText, RegName.all, RegName.text, writeByte]

/-- A word of a line: not empty, with no space, comma or semicolon. -/
def IsToken (l : List Char) : Prop := l ≠ [] ∧ ∀ c ∈ l, c ≠ ' ' ∧ c ≠ ',' ∧ c ≠ ';'

theorem isToken_writeByte (b : Byte) : IsToken (writeByte b) := by
  have := b.isLt
  have h1 := hexDigit_ne (b.toNat / 16) (by omega)
  have h2 := hexDigit_ne (b.toNat % 16) (by omega)
  refine ⟨by simp [writeByte], fun c hc => ?_⟩
  simp only [writeByte, List.mem_cons, List.not_mem_nil, or_false] at hc
  rcases hc with rfl | rfl | rfl | rfl
  · decide
  · decide
  · exact h1
  · exact h2

theorem isToken_writeWord (v : Word) : IsToken (writeWord v) := by
  have := v.isLt
  have h1 := hexDigit_ne (v.toNat / 268435456) (by omega)
  have hm := fun n => hexDigit_ne (n % 16) (Nat.mod_lt _ (by omega))
  refine ⟨by simp [writeWord], fun c hc => ?_⟩
  simp only [writeWord, List.mem_cons, List.not_mem_nil, or_false] at hc
  rcases hc with rfl | rfl | rfl | rfl | rfl | rfl | rfl | rfl | rfl | rfl
  · decide
  · decide
  · exact h1
  all_goals exact hm _

theorem isToken_text (n : RegName) : IsToken n.text := by
  cases n <;> exact ⟨by simp [RegName.text], by simp [RegName.text]⟩

theorem dropWhile_space {l : List Char} (h : ∀ a ∈ l.head?, a ≠ ' ') : l.dropWhile (· = ' ') = l := by
  cases l with
  | nil => rfl
  | cons a l =>
    simp at h
    simp [h]

theorem trimSpaces_token {l : List Char} (h : IsToken l) : trimSpaces l = l := by
  unfold trimSpaces
  rw [dropWhile_space fun a ha => (h.2 a (List.mem_of_head? ha)).1, dropWhile_space, List.reverse_reverse]
  intro a ha
  rw [List.head?_reverse] at ha
  exact (h.2 a (List.mem_of_getLast? ha)).1

theorem trimSpaces_space_token {l : List Char} (h : IsToken l) : trimSpaces (' ' :: l) = l := by
  have := trimSpaces_token h
  unfold trimSpaces at *
  simpa using this

theorem splitOperands_one {l : List Char} (h : ∀ c ∈ l, c ≠ ',') : splitOperands l = [l] := by
  induction l with
  | nil => rfl
  | cons a l ih =>
    rw [splitOperands, ih fun c hc => h c (by simp [hc])]
    simp [h a (by simp)]

theorem splitOperands_two {l m : List Char} (h : ∀ c ∈ l, c ≠ ',') (hm : ∀ c ∈ m, c ≠ ',') :
    splitOperands (l ++ ',' :: m) = [l, m] := by
  induction l with
  | nil => simp [splitOperands, splitOperands_one hm]
  | cons a l ih =>
    rw [List.cons_append, splitOperands, ih fun c hc => h c (by simp [hc])]
    simp [h a (by simp)]

/-- A line is its mnemonic and its operands; a comment changes nothing. -/
theorem readLine_eq {m r c : List Char} (hm : IsToken m) (hr : r = [] ∨ ∃ r', r = ' ' :: r') (hc : ∀ a ∈ r, a ≠ ';')
    (hl : ∀ a ∈ (m ++ r).getLast?, a ≠ ' ') (hc' : c = [] ∨ ∃ c', c = ';' :: c') :
    readLine (m ++ r ++ c) = (readStatement m ((splitOperands r).map trimSpaces)).map some := by
  have h1 : stripComment (m ++ r ++ c) = m ++ r := by
    rw [stripComment, List.takeWhile_append_of_pos]
    · rcases hc' with rfl | ⟨c', rfl⟩ <;> simp
    · intro a ha
      rw [List.mem_append] at ha
      rcases ha with ha | ha
      · simpa using (hm.2 a ha).2.2
      · simpa using hc a ha
  have h2 : trimSpaces (m ++ r) = m ++ r := by
    unfold trimSpaces
    rw [dropWhile_space (l := m ++ r), dropWhile_space, List.reverse_reverse]
    · rw [List.head?_reverse]
      exact hl
    · obtain ⟨a, m', rfl⟩ := List.exists_cons_of_ne_nil hm.1
      simpa using (hm.2 a (by simp)).1
  have hne : m ++ r ≠ [] := by simp [hm.1]
  have hp : ∀ a ∈ m, (decide (a ≠ ' ')) = true := fun a ha => by simpa using (hm.2 a ha).1
  have h3 : (m ++ r).takeWhile (· ≠ ' ') = m := by
    rw [List.takeWhile_append_of_pos hp]
    rcases hr with rfl | ⟨r', rfl⟩ <;> simp
  have h4 : (m ++ r).dropWhile (· ≠ ' ') = r := by
    rw [List.dropWhile_append_of_pos hp]
    rcases hr with rfl | ⟨r', rfl⟩ <;> simp
  unfold readLine
  simp only [h1, h2, hne, if_false, h3, h4]

/-- A line of a mnemonic and one operand. -/
theorem readLine_one {m t c : List Char} (hm : IsToken m) (ht : IsToken t) (hc : c = [] ∨ ∃ c', c = ';' :: c') :
    readLine (m ++ ' ' :: t ++ c) = (readStatement m [t]).map some := by
  rw [readLine_eq hm (.inr ⟨t, rfl⟩) _ _ hc]
  · rw [splitOperands_one (l := ' ' :: t), List.map_cons, List.map_nil, trimSpaces_space_token ht]
    simp only [List.mem_cons]
    rintro c (rfl | h)
    · decide
    · exact (ht.2 c h).2.1
  · simp only [List.mem_cons]
    rintro c (rfl | h)
    · decide
    · exact (ht.2 c h).2.2
  · intro a ha
    rw [List.getLast?_append_of_ne_nil _ (by simp), List.getLast?_cons_of_ne_nil ht.1] at ha
    exact (ht.2 a (List.mem_of_getLast? ha)).1

/-- A line of a mnemonic and two operands. -/
theorem readLine_two {m t u c : List Char} (hm : IsToken m) (ht : IsToken t) (hu : IsToken u)
    (hc : c = [] ∨ ∃ c', c = ';' :: c') :
    readLine (m ++ ' ' :: t ++ ',' :: ' ' :: u ++ c) = (readStatement m [t, u]).map some := by
  have h := @readLine_eq m (' ' :: t ++ ',' :: ' ' :: u) c hm (.inr ⟨_, rfl⟩) ?_ ?_ hc
  · rw [splitOperands_two, List.map_cons, List.map_cons, List.map_nil, trimSpaces_space_token ht,
      trimSpaces_space_token hu] at h
    · simpa using h
    · simp only [List.mem_cons]
      rintro c (rfl | h)
      · decide
      · exact (ht.2 c h).2.1
    · simp only [List.mem_cons]
      rintro c (rfl | h)
      · decide
      · exact (hu.2 c h).2.1
  · simp only [List.mem_cons, List.cons_append, List.mem_append]
    rintro c (rfl | h | rfl | rfl | h)
    · decide
    · exact (ht.2 c h).2.2
    · decide
    · decide
    · exact (hu.2 c h).2.2
  · intro a ha
    rw [← List.append_assoc, List.getLast?_append_of_ne_nil _ (by simp), List.getLast?_cons_of_ne_nil (by simp),
      List.getLast?_cons_of_ne_nil hu.1] at ha
    exact (hu.2 a (List.mem_of_getLast? ha)).1

end Sys2Proof.Machine
end

