-- ==== Sys2Proof/Laws/Decode.lean ====
section
/-! SUPPORT. The fields of a TD built from fields, and the decoder on the TDs the encoder makes (30_encoding.md R52,
R53, R55, R56). -/

namespace Sys2Proof

theorem toNat_append_eq {n m : Nat} (x : BitVec n) (y : BitVec m) : (x ++ y).toNat = x.toNat * 2 ^ m + y.toNat := by
  rw [BitVec.toNat_append, Nat.shiftLeft_eq_mul_pow, Nat.mul_comm, Nat.two_pow_add_eq_or_of_lt y.isLt]

theorem mkTd_toNat (p : BitVec 2) (d : BitVec 1) (o : Byte) (v : Word) :
    (mkTd p d o v).toNat = ((p.toNat * 2 + d.toNat) * 8192 + o.toNat) * 4294967296 + v.toNat := by
  have h₁ := toNat_append_eq p d
  have h₂ := toNat_append_eq (p ++ d) 0#5
  have h₃ := toNat_append_eq (p ++ d ++ 0#5) o
  have h₄ := toNat_append_eq (p ++ d ++ 0#5 ++ o) v
  refine h₄.trans ?_
  rw [h₃, h₂, h₁]
  simp
  ring

section Fields

variable (p : BitVec 2) (d : BitVec 1) (o : Byte) (v : Word)

@[simp] theorem tdPort_mkTd : tdPort (mkTd p d o v) = p := by
  apply BitVec.eq_of_toNat_eq
  have := p.isLt; have := d.isLt; have := o.isLt; have := v.isLt
  simp [tdPort, BitVec.extractLsb'_toNat, mkTd_toNat, Nat.shiftRight_eq_div_pow]
  omega

@[simp] theorem tdDir_mkTd : tdDir (mkTd p d o v) = d := by
  apply BitVec.eq_of_toNat_eq
  have := p.isLt; have := d.isLt; have := o.isLt; have := v.isLt
  simp [tdDir, BitVec.extractLsb'_toNat, mkTd_toNat, Nat.shiftRight_eq_div_pow]
  omega

@[simp] theorem tdRsv_mkTd : tdRsv (mkTd p d o v) = 0#5 := by
  apply BitVec.eq_of_toNat_eq
  have := p.isLt; have := d.isLt; have := o.isLt; have := v.isLt
  simp [tdRsv, BitVec.extractLsb'_toNat, mkTd_toNat, Nat.shiftRight_eq_div_pow]
  omega

@[simp] theorem tdOffset_mkTd : tdOffset (mkTd p d o v) = o := by
  apply BitVec.eq_of_toNat_eq
  have := p.isLt; have := d.isLt; have := o.isLt; have := v.isLt
  simp [tdOffset, BitVec.extractLsb'_toNat, mkTd_toNat, Nat.shiftRight_eq_div_pow]
  omega

@[simp] theorem tdData_mkTd : tdData (mkTd p d o v) = v := by
  apply BitVec.eq_of_toNat_eq
  have := p.isLt; have := d.isLt; have := o.isLt; have := v.isLt
  simp [tdData, BitVec.extractLsb'_toNat, mkTd_toNat]
  omega

end Fields

/-- A TD whose RSV is 0 is the TD of its fields. -/
theorem mkTd_fields {td : Td} (h : tdRsv td = 0#5) :
    mkTd (tdPort td) (tdDir td) (tdOffset td) (tdData td) = td := by
  apply BitVec.eq_of_toNat_eq
  have h' := congrArg BitVec.toNat h
  have := td.isLt
  simp [tdRsv, tdPort, tdDir, tdOffset, tdData, BitVec.extractLsb'_toNat, mkTd_toNat,
    Nat.shiftRight_eq_div_pow] at h' ⊢
  omega

@[simp] theorem decode_encodeRead (o : Byte) : decode (encodeRead o) = .ok (decodeRead o) := by
  simp [decode, encodeRead]

@[simp] theorem decode_encodeWrite (o : Byte) (v : Word) : decode (encodeWrite o v) = .ok (decodeWrite o v) := by
  simp [decode, encodeWrite]

/-- The mapped offsets are the eleven of R55. -/
theorem mapped_iff : ∀ o : Byte, Mapped o ↔ o = 0x00#8 ∨ o = 0x04#8 ∨ o = 0x08#8 ∨ o = 0x0C#8 ∨ o = 0x10#8 ∨
    o = 0x14#8 ∨ o = 0x18#8 ∨ o = 0x1C#8 ∨ o = 0x20#8 ∨ o = 0x24#8 ∨ o = 0x28#8 := by
  decide

/-- The command codes are the four of R56. -/
theorem commandCode_iff (v : Word) : CommandCode v ↔ v = 0#32 ∨ v = 1#32 ∨ v = 2#32 ∨ v = 3#32 := by
  simp only [CommandCode]
  constructor
  · intro h
    have : v.toNat = 0 ∨ v.toNat = 1 ∨ v.toNat = 2 ∨ v.toNat = 3 := by omega
    simpa [BitVec.toNat_inj.symm] using this
  · rintro (rfl | rfl | rfl | rfl) <;> decide

/-- A read decoded from an offset is well-formed and encodes to that offset's read. -/
theorem decodeRead_spec (o : Byte) : (decodeRead o).Wf ∧ encode (decodeRead o) = encodeRead o := by
  unfold decodeRead
  repeat' split
  all_goals first
    | (subst_vars; exact ⟨trivial, rfl⟩)
    | (refine ⟨?_, rfl⟩; simp only [Instr.Wf, mapped_iff]; simp [*])

/-- A command decoded from a value is well-formed and encodes to that write. -/
theorem decodeCommand_spec (v : Word) :
    (decodeCommand v).Wf ∧ encode (decodeCommand v) = encodeWrite 0x18#8 v := by
  unfold decodeCommand
  repeat' split
  all_goals first
    | (subst_vars; exact ⟨trivial, rfl⟩)
    | (refine ⟨?_, rfl⟩; simp only [Instr.Wf, commandCode_iff]; simp [*])

/-- A write decoded from an offset and a value is well-formed and encodes to that write. -/
theorem decodeWrite_spec (o : Byte) (v : Word) :
    (decodeWrite o v).Wf ∧ encode (decodeWrite o v) = encodeWrite o v := by
  unfold decodeWrite
  repeat' split
  all_goals first
    | (subst_vars; exact ⟨trivial, rfl⟩)
    | (subst_vars; exact decodeCommand_spec v)
    | (refine ⟨?_, rfl⟩; simp only [Instr.Wf, mapped_iff]; simp [*])

end Sys2Proof
end

