-- ==== Sys2Proof/Laws/State.lean ====
section
/-! SUPPORT. One lemma per field per named update of the state. -/

namespace Sys2Proof.Machine

variable (s : State)

@[simp] theorem State.answer_params (r : Option Word) : (s.answer r).params = s.params := rfl
@[simp] theorem State.answer_ctrlDither (r : Option Word) : (s.answer r).ctrlDither = s.ctrlDither := rfl
@[simp] theorem State.answer_widthW (r : Option Word) : (s.answer r).widthW = s.widthW := rfl
@[simp] theorem State.answer_heightH (r : Option Word) : (s.answer r).heightH = s.heightH := rfl
@[simp] theorem State.answer_thresholdT (r : Option Word) : (s.answer r).thresholdT = s.thresholdT := rfl
@[simp] theorem State.answer_prefixWord (r : Option Word) : (s.answer r).prefixWord = s.prefixWord := rfl
@[simp] theorem State.answer_doneEn (r : Option Word) : (s.answer r).doneEn = s.doneEn := rfl
@[simp] theorem State.answer_errEn (r : Option Word) : (s.answer r).errEn = s.errEn := rfl
@[simp] theorem State.answer_err (r : Option Word) : (s.answer r).err = s.err := rfl
@[simp] theorem State.answer_seq (r : Option Word) : (s.answer r).seq = s.seq := rfl
@[simp] theorem State.answer_lw (r : Option Word) : (s.answer r).lw = s.lw := rfl
@[simp] theorem State.answer_lh (r : Option Word) : (s.answer r).lh = s.lh := rfl
@[simp] theorem State.answer_lt (r : Option Word) : (s.answer r).lt = s.lt := rfl
@[simp] theorem State.answer_ld (r : Option Word) : (s.answer r).ld = s.ld := rfl
@[simp] theorem State.answer_x (r : Option Word) : (s.answer r).x = s.x := rfl
@[simp] theorem State.answer_y (r : Option Word) : (s.answer r).y = s.y := rfl
@[simp] theorem State.answer_sr (r : Option Word) : (s.answer r).sr = s.sr := rfl
@[simp] theorem State.answer_cur (r : Option Word) : (s.answer r).cur = s.cur := rfl
@[simp] theorem State.answer_nxt (r : Option Word) : (s.answer r).nxt = s.nxt := rfl
@[simp] theorem State.answer_outFifo (r : Option Word) : (s.answer r).outFifo = s.outFifo := rfl
@[simp] theorem State.answer_events (r : Option Word) : (s.answer r).events = s.events := rfl
@[simp] theorem State.answer_ret (r : Option Word) : (s.answer r).ret = r := rfl

@[simp] theorem State.raise_params (e : ErrCause) : (s.raise e).params = s.params := rfl
@[simp] theorem State.raise_ctrlDither (e : ErrCause) : (s.raise e).ctrlDither = s.ctrlDither := rfl
@[simp] theorem State.raise_widthW (e : ErrCause) : (s.raise e).widthW = s.widthW := rfl
@[simp] theorem State.raise_heightH (e : ErrCause) : (s.raise e).heightH = s.heightH := rfl
@[simp] theorem State.raise_thresholdT (e : ErrCause) : (s.raise e).thresholdT = s.thresholdT := rfl
@[simp] theorem State.raise_prefixWord (e : ErrCause) : (s.raise e).prefixWord = s.prefixWord := rfl
@[simp] theorem State.raise_doneEn (e : ErrCause) : (s.raise e).doneEn = s.doneEn := rfl
@[simp] theorem State.raise_errEn (e : ErrCause) : (s.raise e).errEn = s.errEn := rfl
@[simp] theorem State.raise_err (e : ErrCause) : (s.raise e).err = s.err ||| e.mask := rfl
@[simp] theorem State.raise_seq (e : ErrCause) : (s.raise e).seq = s.seq := rfl
@[simp] theorem State.raise_lw (e : ErrCause) : (s.raise e).lw = s.lw := rfl
@[simp] theorem State.raise_lh (e : ErrCause) : (s.raise e).lh = s.lh := rfl
@[simp] theorem State.raise_lt (e : ErrCause) : (s.raise e).lt = s.lt := rfl
@[simp] theorem State.raise_ld (e : ErrCause) : (s.raise e).ld = s.ld := rfl
@[simp] theorem State.raise_x (e : ErrCause) : (s.raise e).x = s.x := rfl
@[simp] theorem State.raise_y (e : ErrCause) : (s.raise e).y = s.y := rfl
@[simp] theorem State.raise_sr (e : ErrCause) : (s.raise e).sr = s.sr := rfl
@[simp] theorem State.raise_cur (e : ErrCause) : (s.raise e).cur = s.cur := rfl
@[simp] theorem State.raise_nxt (e : ErrCause) : (s.raise e).nxt = s.nxt := rfl
@[simp] theorem State.raise_outFifo (e : ErrCause) : (s.raise e).outFifo = s.outFifo := rfl
@[simp] theorem State.raise_events (e : ErrCause) : (s.raise e).events = s.events := rfl
@[simp] theorem State.raise_ret (e : ErrCause) : (s.raise e).ret = s.ret := rfl

@[simp] theorem State.fifoPush_params (bs : List Byte) : (s.fifoPush bs).params = s.params := rfl
@[simp] theorem State.fifoPush_ctrlDither (bs : List Byte) : (s.fifoPush bs).ctrlDither = s.ctrlDither := rfl
@[simp] theorem State.fifoPush_widthW (bs : List Byte) : (s.fifoPush bs).widthW = s.widthW := rfl
@[simp] theorem State.fifoPush_heightH (bs : List Byte) : (s.fifoPush bs).heightH = s.heightH := rfl
@[simp] theorem State.fifoPush_thresholdT (bs : List Byte) : (s.fifoPush bs).thresholdT = s.thresholdT := rfl
@[simp] theorem State.fifoPush_prefixWord (bs : List Byte) : (s.fifoPush bs).prefixWord = s.prefixWord := rfl
@[simp] theorem State.fifoPush_doneEn (bs : List Byte) : (s.fifoPush bs).doneEn = s.doneEn := rfl
@[simp] theorem State.fifoPush_errEn (bs : List Byte) : (s.fifoPush bs).errEn = s.errEn := rfl
@[simp] theorem State.fifoPush_err (bs : List Byte) : (s.fifoPush bs).err = s.err := rfl
@[simp] theorem State.fifoPush_seq (bs : List Byte) : (s.fifoPush bs).seq = s.seq := rfl
@[simp] theorem State.fifoPush_lw (bs : List Byte) : (s.fifoPush bs).lw = s.lw := rfl
@[simp] theorem State.fifoPush_lh (bs : List Byte) : (s.fifoPush bs).lh = s.lh := rfl
@[simp] theorem State.fifoPush_lt (bs : List Byte) : (s.fifoPush bs).lt = s.lt := rfl
@[simp] theorem State.fifoPush_ld (bs : List Byte) : (s.fifoPush bs).ld = s.ld := rfl
@[simp] theorem State.fifoPush_x (bs : List Byte) : (s.fifoPush bs).x = s.x := rfl
@[simp] theorem State.fifoPush_y (bs : List Byte) : (s.fifoPush bs).y = s.y := rfl
@[simp] theorem State.fifoPush_sr (bs : List Byte) : (s.fifoPush bs).sr = s.sr := rfl
@[simp] theorem State.fifoPush_cur (bs : List Byte) : (s.fifoPush bs).cur = s.cur := rfl
@[simp] theorem State.fifoPush_nxt (bs : List Byte) : (s.fifoPush bs).nxt = s.nxt := rfl
@[simp] theorem State.fifoPush_outFifo (bs : List Byte) : (s.fifoPush bs).outFifo = s.outFifo ++ bs := rfl
@[simp] theorem State.fifoPush_events (bs : List Byte) : (s.fifoPush bs).events = s.events := rfl
@[simp] theorem State.fifoPush_ret (bs : List Byte) : (s.fifoPush bs).ret = s.ret := rfl

@[simp] theorem State.distribute_params (e : Int) : (s.distribute e).params = s.params := rfl
@[simp] theorem State.distribute_ctrlDither (e : Int) : (s.distribute e).ctrlDither = s.ctrlDither := rfl
@[simp] theorem State.distribute_widthW (e : Int) : (s.distribute e).widthW = s.widthW := rfl
@[simp] theorem State.distribute_heightH (e : Int) : (s.distribute e).heightH = s.heightH := rfl
@[simp] theorem State.distribute_thresholdT (e : Int) : (s.distribute e).thresholdT = s.thresholdT := rfl
@[simp] theorem State.distribute_prefixWord (e : Int) : (s.distribute e).prefixWord = s.prefixWord := rfl
@[simp] theorem State.distribute_doneEn (e : Int) : (s.distribute e).doneEn = s.doneEn := rfl
@[simp] theorem State.distribute_errEn (e : Int) : (s.distribute e).errEn = s.errEn := rfl
@[simp] theorem State.distribute_err (e : Int) : (s.distribute e).err = s.err := rfl
@[simp] theorem State.distribute_seq (e : Int) : (s.distribute e).seq = s.seq := rfl
@[simp] theorem State.distribute_lw (e : Int) : (s.distribute e).lw = s.lw := rfl
@[simp] theorem State.distribute_lh (e : Int) : (s.distribute e).lh = s.lh := rfl
@[simp] theorem State.distribute_lt (e : Int) : (s.distribute e).lt = s.lt := rfl
@[simp] theorem State.distribute_ld (e : Int) : (s.distribute e).ld = s.ld := rfl
@[simp] theorem State.distribute_x (e : Int) : (s.distribute e).x = s.x := rfl
@[simp] theorem State.distribute_y (e : Int) : (s.distribute e).y = s.y := rfl
@[simp] theorem State.distribute_sr (e : Int) : (s.distribute e).sr = s.sr := rfl
@[simp] theorem State.distribute_cur (e : Int) : (s.distribute e).cur = diffuseCur e s.x.toNat s.lw.toNat s.cur := rfl
@[simp] theorem State.distribute_nxt (e : Int) : (s.distribute e).nxt = diffuseNxt e s.x.toNat s.y.toNat s.lw.toNat s.lh.toNat s.nxt := rfl
@[simp] theorem State.distribute_outFifo (e : Int) : (s.distribute e).outFifo = s.outFifo := rfl
@[simp] theorem State.distribute_events (e : Int) : (s.distribute e).events = s.events := rfl
@[simp] theorem State.distribute_ret (e : Int) : (s.distribute e).ret = s.ret := rfl

@[simp] theorem State.packBit_params (b : Bool) : (s.packBit b).params = s.params := rfl
@[simp] theorem State.packBit_ctrlDither (b : Bool) : (s.packBit b).ctrlDither = s.ctrlDither := rfl
@[simp] theorem State.packBit_widthW (b : Bool) : (s.packBit b).widthW = s.widthW := rfl
@[simp] theorem State.packBit_heightH (b : Bool) : (s.packBit b).heightH = s.heightH := rfl
@[simp] theorem State.packBit_thresholdT (b : Bool) : (s.packBit b).thresholdT = s.thresholdT := rfl
@[simp] theorem State.packBit_prefixWord (b : Bool) : (s.packBit b).prefixWord = s.prefixWord := rfl
@[simp] theorem State.packBit_doneEn (b : Bool) : (s.packBit b).doneEn = s.doneEn := rfl
@[simp] theorem State.packBit_errEn (b : Bool) : (s.packBit b).errEn = s.errEn := rfl
@[simp] theorem State.packBit_err (b : Bool) : (s.packBit b).err = s.err := rfl
@[simp] theorem State.packBit_seq (b : Bool) : (s.packBit b).seq = s.seq := rfl
@[simp] theorem State.packBit_lw (b : Bool) : (s.packBit b).lw = s.lw := rfl
@[simp] theorem State.packBit_lh (b : Bool) : (s.packBit b).lh = s.lh := rfl
@[simp] theorem State.packBit_lt (b : Bool) : (s.packBit b).lt = s.lt := rfl
@[simp] theorem State.packBit_ld (b : Bool) : (s.packBit b).ld = s.ld := rfl
@[simp] theorem State.packBit_x (b : Bool) : (s.packBit b).x = s.x := rfl
@[simp] theorem State.packBit_y (b : Bool) : (s.packBit b).y = s.y := rfl
@[simp] theorem State.packBit_sr (b : Bool) : (s.packBit b).sr = putBit s.sr (7 - s.x.toNat % 8) b := rfl
@[simp] theorem State.packBit_cur (b : Bool) : (s.packBit b).cur = s.cur := rfl
@[simp] theorem State.packBit_nxt (b : Bool) : (s.packBit b).nxt = s.nxt := rfl
@[simp] theorem State.packBit_outFifo (b : Bool) : (s.packBit b).outFifo = s.outFifo := rfl
@[simp] theorem State.packBit_events (b : Bool) : (s.packBit b).events = s.events := rfl
@[simp] theorem State.packBit_ret (b : Bool) : (s.packBit b).ret = s.ret := rfl

@[simp] theorem State.abandonFrame_params : s.abandonFrame.params = s.params := rfl
@[simp] theorem State.abandonFrame_ctrlDither : s.abandonFrame.ctrlDither = s.ctrlDither := rfl
@[simp] theorem State.abandonFrame_widthW : s.abandonFrame.widthW = s.widthW := rfl
@[simp] theorem State.abandonFrame_heightH : s.abandonFrame.heightH = s.heightH := rfl
@[simp] theorem State.abandonFrame_thresholdT : s.abandonFrame.thresholdT = s.thresholdT := rfl
@[simp] theorem State.abandonFrame_prefixWord : s.abandonFrame.prefixWord = s.prefixWord := rfl
@[simp] theorem State.abandonFrame_doneEn : s.abandonFrame.doneEn = s.doneEn := rfl
@[simp] theorem State.abandonFrame_errEn : s.abandonFrame.errEn = s.errEn := rfl
@[simp] theorem State.abandonFrame_err : s.abandonFrame.err = s.err := rfl
@[simp] theorem State.abandonFrame_seq : s.abandonFrame.seq = SeqState.aborted := rfl
@[simp] theorem State.abandonFrame_lw : s.abandonFrame.lw = s.lw := rfl
@[simp] theorem State.abandonFrame_lh : s.abandonFrame.lh = s.lh := rfl
@[simp] theorem State.abandonFrame_lt : s.abandonFrame.lt = s.lt := rfl
@[simp] theorem State.abandonFrame_ld : s.abandonFrame.ld = s.ld := rfl
@[simp] theorem State.abandonFrame_x : s.abandonFrame.x = s.x := rfl
@[simp] theorem State.abandonFrame_y : s.abandonFrame.y = s.y := rfl
@[simp] theorem State.abandonFrame_sr : s.abandonFrame.sr = 0#8 := rfl
@[simp] theorem State.abandonFrame_cur : s.abandonFrame.cur = s.cur := rfl
@[simp] theorem State.abandonFrame_nxt : s.abandonFrame.nxt = s.nxt := rfl
@[simp] theorem State.abandonFrame_outFifo : s.abandonFrame.outFifo = [] := rfl
@[simp] theorem State.abandonFrame_events : s.abandonFrame.events = s.events := rfl
@[simp] theorem State.abandonFrame_ret : s.abandonFrame.ret = s.ret := rfl

@[simp] theorem State.clear_params : s.clear.params = s.params := rfl
@[simp] theorem State.clear_ctrlDither : s.clear.ctrlDither = s.ctrlDither := rfl
@[simp] theorem State.clear_widthW : s.clear.widthW = s.widthW := rfl
@[simp] theorem State.clear_heightH : s.clear.heightH = s.heightH := rfl
@[simp] theorem State.clear_thresholdT : s.clear.thresholdT = s.thresholdT := rfl
@[simp] theorem State.clear_prefixWord : s.clear.prefixWord = s.prefixWord := rfl
@[simp] theorem State.clear_doneEn : s.clear.doneEn = s.doneEn := rfl
@[simp] theorem State.clear_errEn : s.clear.errEn = s.errEn := rfl
@[simp] theorem State.clear_err : s.clear.err = 0#5 := rfl
@[simp] theorem State.clear_seq : s.clear.seq = s.seq.afterClear := rfl
@[simp] theorem State.clear_lw : s.clear.lw = s.lw := rfl
@[simp] theorem State.clear_lh : s.clear.lh = s.lh := rfl
@[simp] theorem State.clear_lt : s.clear.lt = s.lt := rfl
@[simp] theorem State.clear_ld : s.clear.ld = s.ld := rfl
@[simp] theorem State.clear_x : s.clear.x = s.x := rfl
@[simp] theorem State.clear_y : s.clear.y = s.y := rfl
@[simp] theorem State.clear_sr : s.clear.sr = s.sr := rfl
@[simp] theorem State.clear_cur : s.clear.cur = s.cur := rfl
@[simp] theorem State.clear_nxt : s.clear.nxt = s.nxt := rfl
@[simp] theorem State.clear_outFifo : s.clear.outFifo = s.outFifo := rfl
@[simp] theorem State.clear_events : s.clear.events = s.events := rfl
@[simp] theorem State.clear_ret : s.clear.ret = s.ret := rfl

@[simp] theorem State.popTo_params (rest : List Byte) : (s.popTo rest).params = s.params := rfl
@[simp] theorem State.popTo_ctrlDither (rest : List Byte) : (s.popTo rest).ctrlDither = s.ctrlDither := rfl
@[simp] theorem State.popTo_widthW (rest : List Byte) : (s.popTo rest).widthW = s.widthW := rfl
@[simp] theorem State.popTo_heightH (rest : List Byte) : (s.popTo rest).heightH = s.heightH := rfl
@[simp] theorem State.popTo_thresholdT (rest : List Byte) : (s.popTo rest).thresholdT = s.thresholdT := rfl
@[simp] theorem State.popTo_prefixWord (rest : List Byte) : (s.popTo rest).prefixWord = s.prefixWord := rfl
@[simp] theorem State.popTo_doneEn (rest : List Byte) : (s.popTo rest).doneEn = s.doneEn := rfl
@[simp] theorem State.popTo_errEn (rest : List Byte) : (s.popTo rest).errEn = s.errEn := rfl
@[simp] theorem State.popTo_err (rest : List Byte) : (s.popTo rest).err = s.err := rfl
@[simp] theorem State.popTo_seq (rest : List Byte) : (s.popTo rest).seq = s.seq.afterPop rest := rfl
@[simp] theorem State.popTo_lw (rest : List Byte) : (s.popTo rest).lw = s.lw := rfl
@[simp] theorem State.popTo_lh (rest : List Byte) : (s.popTo rest).lh = s.lh := rfl
@[simp] theorem State.popTo_lt (rest : List Byte) : (s.popTo rest).lt = s.lt := rfl
@[simp] theorem State.popTo_ld (rest : List Byte) : (s.popTo rest).ld = s.ld := rfl
@[simp] theorem State.popTo_x (rest : List Byte) : (s.popTo rest).x = s.x := rfl
@[simp] theorem State.popTo_y (rest : List Byte) : (s.popTo rest).y = s.y := rfl
@[simp] theorem State.popTo_sr (rest : List Byte) : (s.popTo rest).sr = s.sr := rfl
@[simp] theorem State.popTo_cur (rest : List Byte) : (s.popTo rest).cur = s.cur := rfl
@[simp] theorem State.popTo_nxt (rest : List Byte) : (s.popTo rest).nxt = s.nxt := rfl
@[simp] theorem State.popTo_outFifo (rest : List Byte) : (s.popTo rest).outFifo = rest := rfl
@[simp] theorem State.popTo_events (rest : List Byte) : (s.popTo rest).events = s.events := rfl
@[simp] theorem State.popTo_ret (rest : List Byte) : (s.popTo rest).ret = s.ret := rfl

@[simp] theorem State.startFrame_params : s.startFrame.params = s.params := rfl
@[simp] theorem State.startFrame_ctrlDither : s.startFrame.ctrlDither = s.ctrlDither := rfl
@[simp] theorem State.startFrame_widthW : s.startFrame.widthW = s.widthW := rfl
@[simp] theorem State.startFrame_heightH : s.startFrame.heightH = s.heightH := rfl
@[simp] theorem State.startFrame_thresholdT : s.startFrame.thresholdT = s.thresholdT := rfl
@[simp] theorem State.startFrame_prefixWord : s.startFrame.prefixWord = s.prefixWord := rfl
@[simp] theorem State.startFrame_doneEn : s.startFrame.doneEn = s.doneEn := rfl
@[simp] theorem State.startFrame_errEn : s.startFrame.errEn = s.errEn := rfl
@[simp] theorem State.startFrame_err : s.startFrame.err = s.err := rfl
@[simp] theorem State.startFrame_seq : s.startFrame.seq = SeqState.run := rfl
@[simp] theorem State.startFrame_lw : s.startFrame.lw = s.widthW := rfl
@[simp] theorem State.startFrame_lh : s.startFrame.lh = s.heightH := rfl
@[simp] theorem State.startFrame_lt : s.startFrame.lt = s.thresholdT := rfl
@[simp] theorem State.startFrame_ld : s.startFrame.ld = s.ctrlDither := rfl
@[simp] theorem State.startFrame_x : s.startFrame.x = 0#16 := rfl
@[simp] theorem State.startFrame_y : s.startFrame.y = 0#16 := rfl
@[simp] theorem State.startFrame_sr : s.startFrame.sr = 0#8 := rfl
@[simp] theorem State.startFrame_cur : s.startFrame.cur = [] := rfl
@[simp] theorem State.startFrame_nxt : s.startFrame.nxt = [] := rfl
@[simp] theorem State.startFrame_outFifo : s.startFrame.outFifo = headerBytes s.prefixWord s.widthW.toNat s.heightH.toNat := rfl
@[simp] theorem State.startFrame_events : s.startFrame.events = s.events := rfl
@[simp] theorem State.startFrame_ret : s.startFrame.ret = s.ret := rfl

@[simp] theorem State.diffuse_params (smp : Byte) : (s.diffuse smp).params = s.params := by unfold State.diffuse; split <;> rfl
@[simp] theorem State.diffuse_ctrlDither (smp : Byte) : (s.diffuse smp).ctrlDither = s.ctrlDither := by unfold State.diffuse; split <;> rfl
@[simp] theorem State.diffuse_widthW (smp : Byte) : (s.diffuse smp).widthW = s.widthW := by unfold State.diffuse; split <;> rfl
@[simp] theorem State.diffuse_heightH (smp : Byte) : (s.diffuse smp).heightH = s.heightH := by unfold State.diffuse; split <;> rfl
@[simp] theorem State.diffuse_thresholdT (smp : Byte) : (s.diffuse smp).thresholdT = s.thresholdT := by unfold State.diffuse; split <;> rfl
@[simp] theorem State.diffuse_prefixWord (smp : Byte) : (s.diffuse smp).prefixWord = s.prefixWord := by unfold State.diffuse; split <;> rfl
@[simp] theorem State.diffuse_doneEn (smp : Byte) : (s.diffuse smp).doneEn = s.doneEn := by unfold State.diffuse; split <;> rfl
@[simp] theorem State.diffuse_errEn (smp : Byte) : (s.diffuse smp).errEn = s.errEn := by unfold State.diffuse; split <;> rfl
@[simp] theorem State.diffuse_err (smp : Byte) : (s.diffuse smp).err = s.err := by unfold State.diffuse; split <;> rfl
@[simp] theorem State.diffuse_seq (smp : Byte) : (s.diffuse smp).seq = s.seq := by unfold State.diffuse; split <;> rfl
@[simp] theorem State.diffuse_lw (smp : Byte) : (s.diffuse smp).lw = s.lw := by unfold State.diffuse; split <;> rfl
@[simp] theorem State.diffuse_lh (smp : Byte) : (s.diffuse smp).lh = s.lh := by unfold State.diffuse; split <;> rfl
@[simp] theorem State.diffuse_lt (smp : Byte) : (s.diffuse smp).lt = s.lt := by unfold State.diffuse; split <;> rfl
@[simp] theorem State.diffuse_ld (smp : Byte) : (s.diffuse smp).ld = s.ld := by unfold State.diffuse; split <;> rfl
@[simp] theorem State.diffuse_x (smp : Byte) : (s.diffuse smp).x = s.x := by unfold State.diffuse; split <;> rfl
@[simp] theorem State.diffuse_y (smp : Byte) : (s.diffuse smp).y = s.y := by unfold State.diffuse; split <;> rfl
@[simp] theorem State.diffuse_sr (smp : Byte) : (s.diffuse smp).sr = s.sr := by unfold State.diffuse; split <;> rfl
@[simp] theorem State.diffuse_outFifo (smp : Byte) : (s.diffuse smp).outFifo = s.outFifo := by unfold State.diffuse; split <;> rfl
@[simp] theorem State.diffuse_events (smp : Byte) : (s.diffuse smp).events = s.events := by unfold State.diffuse; split <;> rfl
@[simp] theorem State.diffuse_ret (smp : Byte) : (s.diffuse smp).ret = s.ret := by unfold State.diffuse; split <;> rfl

@[simp] theorem State.emitByte_params : s.emitByte.params = s.params := by unfold State.emitByte; split <;> rfl
@[simp] theorem State.emitByte_ctrlDither : s.emitByte.ctrlDither = s.ctrlDither := by unfold State.emitByte; split <;> rfl
@[simp] theorem State.emitByte_widthW : s.emitByte.widthW = s.widthW := by unfold State.emitByte; split <;> rfl
@[simp] theorem State.emitByte_heightH : s.emitByte.heightH = s.heightH := by unfold State.emitByte; split <;> rfl
@[simp] theorem State.emitByte_thresholdT : s.emitByte.thresholdT = s.thresholdT := by unfold State.emitByte; split <;> rfl
@[simp] theorem State.emitByte_prefixWord : s.emitByte.prefixWord = s.prefixWord := by unfold State.emitByte; split <;> rfl
@[simp] theorem State.emitByte_doneEn : s.emitByte.doneEn = s.doneEn := by unfold State.emitByte; split <;> rfl
@[simp] theorem State.emitByte_errEn : s.emitByte.errEn = s.errEn := by unfold State.emitByte; split <;> rfl
@[simp] theorem State.emitByte_err : s.emitByte.err = s.err := by unfold State.emitByte; split <;> rfl
@[simp] theorem State.emitByte_seq : s.emitByte.seq = s.seq := by unfold State.emitByte; split <;> rfl
@[simp] theorem State.emitByte_lw : s.emitByte.lw = s.lw := by unfold State.emitByte; split <;> rfl
@[simp] theorem State.emitByte_lh : s.emitByte.lh = s.lh := by unfold State.emitByte; split <;> rfl
@[simp] theorem State.emitByte_lt : s.emitByte.lt = s.lt := by unfold State.emitByte; split <;> rfl
@[simp] theorem State.emitByte_ld : s.emitByte.ld = s.ld := by unfold State.emitByte; split <;> rfl
@[simp] theorem State.emitByte_x : s.emitByte.x = s.x := by unfold State.emitByte; split <;> rfl
@[simp] theorem State.emitByte_y : s.emitByte.y = s.y := by unfold State.emitByte; split <;> rfl
@[simp] theorem State.emitByte_cur : s.emitByte.cur = s.cur := by unfold State.emitByte; split <;> rfl
@[simp] theorem State.emitByte_nxt : s.emitByte.nxt = s.nxt := by unfold State.emitByte; split <;> rfl
@[simp] theorem State.emitByte_events : s.emitByte.events = s.events := by unfold State.emitByte; split <;> rfl
@[simp] theorem State.emitByte_ret : s.emitByte.ret = s.ret := by unfold State.emitByte; split <;> rfl

@[simp] theorem State.advance_params : s.advance.params = s.params := by unfold State.advance; split <;> rfl
@[simp] theorem State.advance_ctrlDither : s.advance.ctrlDither = s.ctrlDither := by unfold State.advance; split <;> rfl
@[simp] theorem State.advance_widthW : s.advance.widthW = s.widthW := by unfold State.advance; split <;> rfl
@[simp] theorem State.advance_heightH : s.advance.heightH = s.heightH := by unfold State.advance; split <;> rfl
@[simp] theorem State.advance_thresholdT : s.advance.thresholdT = s.thresholdT := by unfold State.advance; split <;> rfl
@[simp] theorem State.advance_prefixWord : s.advance.prefixWord = s.prefixWord := by unfold State.advance; split <;> rfl
@[simp] theorem State.advance_doneEn : s.advance.doneEn = s.doneEn := by unfold State.advance; split <;> rfl
@[simp] theorem State.advance_errEn : s.advance.errEn = s.errEn := by unfold State.advance; split <;> rfl
@[simp] theorem State.advance_err : s.advance.err = s.err := by unfold State.advance; split <;> rfl
@[simp] theorem State.advance_lw : s.advance.lw = s.lw := by unfold State.advance; split <;> rfl
@[simp] theorem State.advance_lh : s.advance.lh = s.lh := by unfold State.advance; split <;> rfl
@[simp] theorem State.advance_lt : s.advance.lt = s.lt := by unfold State.advance; split <;> rfl
@[simp] theorem State.advance_ld : s.advance.ld = s.ld := by unfold State.advance; split <;> rfl
@[simp] theorem State.advance_sr : s.advance.sr = s.sr := by unfold State.advance; split <;> rfl
@[simp] theorem State.advance_outFifo : s.advance.outFifo = s.outFifo := by unfold State.advance; split <;> rfl
@[simp] theorem State.advance_events : s.advance.events = s.events := by unfold State.advance; split <;> rfl
@[simp] theorem State.advance_ret : s.advance.ret = s.ret := by unfold State.advance; split <;> rfl

@[simp] theorem State.acceptSample_params (smp : Byte) : (s.acceptSample smp).params = s.params := by simp [State.acceptSample]
@[simp] theorem State.acceptSample_ctrlDither (smp : Byte) : (s.acceptSample smp).ctrlDither = s.ctrlDither := by simp [State.acceptSample]
@[simp] theorem State.acceptSample_widthW (smp : Byte) : (s.acceptSample smp).widthW = s.widthW := by simp [State.acceptSample]
@[simp] theorem State.acceptSample_heightH (smp : Byte) : (s.acceptSample smp).heightH = s.heightH := by simp [State.acceptSample]
@[simp] theorem State.acceptSample_thresholdT (smp : Byte) : (s.acceptSample smp).thresholdT = s.thresholdT := by simp [State.acceptSample]
@[simp] theorem State.acceptSample_prefixWord (smp : Byte) : (s.acceptSample smp).prefixWord = s.prefixWord := by simp [State.acceptSample]
@[simp] theorem State.acceptSample_doneEn (smp : Byte) : (s.acceptSample smp).doneEn = s.doneEn := by simp [State.acceptSample]
@[simp] theorem State.acceptSample_errEn (smp : Byte) : (s.acceptSample smp).errEn = s.errEn := by simp [State.acceptSample]
@[simp] theorem State.acceptSample_err (smp : Byte) : (s.acceptSample smp).err = s.err := by simp [State.acceptSample]
@[simp] theorem State.acceptSample_lw (smp : Byte) : (s.acceptSample smp).lw = s.lw := by simp [State.acceptSample]
@[simp] theorem State.acceptSample_lh (smp : Byte) : (s.acceptSample smp).lh = s.lh := by simp [State.acceptSample]
@[simp] theorem State.acceptSample_lt (smp : Byte) : (s.acceptSample smp).lt = s.lt := by simp [State.acceptSample]
@[simp] theorem State.acceptSample_ld (smp : Byte) : (s.acceptSample smp).ld = s.ld := by simp [State.acceptSample]
@[simp] theorem State.acceptSample_events (smp : Byte) : (s.acceptSample smp).events = s.events := by simp [State.acceptSample]
@[simp] theorem State.acceptSample_ret (smp : Byte) : (s.acceptSample smp).ret = s.ret := by simp [State.acceptSample]

end Sys2Proof.Machine
end

