-- ==== Sys2Proof/Laws/Exec.lean ====
section
/-! SUPPORT. What a taken transaction can do, said once: claims over all transactions cite `exec_next_cases` and do not
unfold the meanings. -/

namespace Sys2Proof.Machine

/-- The state with other values in the read/write registers. -/
def State.withRegs (s : State) (d : Bool) (w h : Half) (t : Byte) (p : Word) (de ee : Bool) : State :=
  { s with ctrlDither := d, widthW := w, heightH := h, thresholdT := t, prefixWord := p, doneEn := de, errEn := ee }

/-- A transaction of the register port (30_encoding.md R53). -/
def Instr.OnRegisterPort (i : Instr) : Prop := i ≠ .outPop ∧ ∀ smp, i ≠ .pixPush smp

/-- What a transaction that is taken can leave. -/
inductive Effect (s : State) : Instr → State → Prop where
  | quiet (i) (hi : Instr.OnRegisterPort i) (r) : Effect s i (s.answer r)
  | raised (i) (hi : Instr.OnRegisterPort i) (e : ErrCause) (r) : Effect s i ((s.raise e).answer r)
  | written (i) (hi : Instr.OnRegisterPort i) (d w h t p de ee) : Effect s i ((s.withRegs d w h t p de ee).answer none)
  | started (h : s.startAccepted = true) : Effect s .cmdStart (s.startFrame.answer none)
  | aborted (h : s.frameActive = true) : Effect s .cmdAbort (s.abandonFrame.answer none)
  | cleared : Effect s .cmdClear (s.clear.answer none)
  | pushed (smp) (h : s.inReady = true) : Effect s (.pixPush smp) ((s.acceptSample smp).answer none)
  | popped (b rest) (h : s.outFifo = b :: rest) : Effect s .outPop ((s.popTo rest).answer (some (b.setWidth 32)))

/-- A register write that is performed writes the read/write registers, and one that is not raises BADWRITE. -/
theorem effect_writeIf {s u : State} {i : Instr} (hi : Instr.OnRegisterPort i) {legal : Bool}
    (hu : ∃ d w h t p de ee, u = s.withRegs d w h t p de ee) : Effect s i (s.writeIf legal u) := by
  obtain ⟨d, w, h, t, p, de, ee, rfl⟩ := hu
  unfold State.writeIf
  split
  · exact .written _ hi ..
  · exact .raised _ hi ..

/-- What a transaction that is taken does. -/
theorem exec_next_cases {i : Instr} {s t : State} (h : exec i s = .next t) : Effect s i t := by
  cases i with
  | rdCtrl | rdWidth | rdHeight | rdThreshold | rdPrefix | rdIrqEn | rdCmd | rdStatus | rdErr | rdPos | rdCaps | cmdNop =>
    cases h
    exact .quiet _ ⟨by simp, by simp⟩ _
  | rdUnmapped | wrUnmapped | wrStatus | wrErr | wrPos | wrCaps | cmdReserved =>
    cases h
    exact .raised _ ⟨by simp, by simp⟩ ..
  | wrCtrl v =>
    cases h
    exact effect_writeIf ⟨by simp, by simp⟩
      ⟨v.getLsbD 0, s.widthW, s.heightH, s.thresholdT, s.prefixWord, s.doneEn, s.errEn, rfl⟩
  | wrWidth v =>
    cases h
    exact effect_writeIf ⟨by simp, by simp⟩
      ⟨s.ctrlDither, v.setWidth 16, s.heightH, s.thresholdT, s.prefixWord, s.doneEn, s.errEn, rfl⟩
  | wrHeight v =>
    cases h
    exact effect_writeIf ⟨by simp, by simp⟩
      ⟨s.ctrlDither, s.widthW, v.setWidth 16, s.thresholdT, s.prefixWord, s.doneEn, s.errEn, rfl⟩
  | wrThreshold v =>
    cases h
    exact effect_writeIf ⟨by simp, by simp⟩
      ⟨s.ctrlDither, s.widthW, s.heightH, v.setWidth 8, s.prefixWord, s.doneEn, s.errEn, rfl⟩
  | wrPrefix v =>
    cases h
    exact .written _ ⟨by simp, by simp⟩ s.ctrlDither s.widthW s.heightH s.thresholdT v s.doneEn s.errEn
  | wrIrqEn v =>
    cases h
    exact effect_writeIf ⟨by simp, by simp⟩
      ⟨s.ctrlDither, s.widthW, s.heightH, s.thresholdT, s.prefixWord, v.getLsbD 0, v.getLsbD 1, rfl⟩
  | cmdStart =>
    cases h
    split
    · exact .raised _ ⟨by simp, by simp⟩ ..
    · split
      · exact .raised _ ⟨by simp, by simp⟩ ..
      · rename_i ha hb
        exact .started (by simp [State.startAccepted, ha, hb])
  | cmdAbort =>
    cases h
    split
    · rename_i ha
      exact .aborted ha
    · exact .quiet _ ⟨by simp, by simp⟩ _
  | cmdClear =>
    cases h
    exact .cleared
  | pixPush smp =>
    simp only [exec, execPixPush] at h
    split at h
    · rename_i hr
      cases h
      exact .pushed smp hr
    · cases h
  | outPop =>
    simp only [exec, execOutPop] at h
    split at h
    · cases h
    · rename_i b rest hf
      cases h
      exact .popped b rest hf

/-- A push that is taken (42_quantizer_dither.md R96). -/
theorem exec_pixPush_ready {s : State} (smp : Byte) (h : s.inReady = true) :
    exec (.pixPush smp) s = .next ((s.acceptSample smp).answer none) := by
  simp only [exec, execPixPush, h, if_true]

/-- A pop that is taken (44_frame_output.md R117). -/
theorem exec_outPop_cons {s : State} {b : Byte} {rest : List Byte} (h : s.outFifo = b :: rest) :
    exec .outPop s = .next ((s.popTo rest).answer (some (b.setWidth 32))) := by
  simp only [exec, execOutPop, h]

/-- A START that is performed (41_commands.md R91). -/
theorem exec_cmdStart_accepted {s : State} (h : s.startAccepted = true) :
    exec .cmdStart s = .next (s.startFrame.answer none) := by
  simp only [State.startAccepted, Bool.and_eq_true, Bool.not_eq_true'] at h
  simp only [exec, execCmdStart, h.1, h.2, Bool.false_eq_true, if_false]

end Sys2Proof.Machine
end

