-- ==== Sys2Proof/Laws/Flags.lean ====
section
/-! SUPPORT. The words the reads return as numbers (10_state.md R23, R25, R26), the legal register values as ranges
(40_register_access.md R77 to R83), and the ERR bits after a raise (60_exceptions.md R121). -/

namespace Sys2Proof.Machine

theorem bit_toNat (b : Bool) : (bit b).toNat = if b then 1 else 0 := by cases b <;> rfl

/-- The POS word as a number (R25). -/
theorem posWord_eq (s : State) : s.posWord = BitVec.ofNat 32 (s.y.toNat * 65536 + s.x.toNat) := by
  apply BitVec.eq_of_toNat_eq
  have := s.x.isLt
  have := s.y.isLt
  rw [State.posWord, toNat_append_eq]
  simp
  omega

/-- The CAPS word as a number (R26). -/
theorem capsWord_eq (s : State) :
    s.capsWord = BitVec.ofNat 32 (s.params.ofifoDepth * 65536 + s.params.maxWidth) := by
  apply BitVec.eq_of_toNat_eq
  have := s.params.maxWidth_le
  have := s.params.ofifoDepth_le
  rw [State.capsWord, toNat_append_eq, toNat_append_eq]
  simp
  omega

/-- The STATUS word as a number (R23). -/
theorem statusWord_toNat (s : State) : s.statusWord.toNat =
    s.outFifo.length % 256 * 256 + (bit s.irq).toNat * 32 + (bit s.outValid).toNat * 16 + (bit s.inReady).toNat * 8
      + s.seq.code.toNat := by
  rw [State.statusWord]
  simp only [toNat_append_eq, BitVec.toNat_ofNat, Nat.zero_mod]
  omega

/-- The upper n of 32 bits are 0 exactly when the number is below 2 to the number of the others. -/
theorem extractLsb'_eq_zero_iff (v : Word) (k n : Nat) (h : k + n = 32) :
    v.extractLsb' k n = 0#n ↔ v.toNat < 2 ^ k := by
  have h2 : 2 ^ k * 2 ^ n = 2 ^ 32 := by rw [← pow_add, h]
  have hlt : v.toNat / 2 ^ k < 2 ^ n := by
    rw [Nat.div_lt_iff_lt_mul (Nat.two_pow_pos k), Nat.mul_comm, h2]
    exact v.isLt
  rw [← BitVec.toNat_inj, BitVec.extractLsb'_toNat, Nat.shiftRight_eq_div_pow, Nat.mod_eq_of_lt hlt, BitVec.toNat_ofNat,
    Nat.zero_mod, Nat.div_eq_zero_iff]
  simp

theorem ctrlLegal_eq (v : Word) : ctrlLegal v = decide (v.toNat ≤ 1) := by
  rw [Bool.eq_iff_iff, ctrlLegal, beq_iff_eq, extractLsb'_eq_zero_iff v 1 31 rfl, decide_eq_true_iff]
  omega

theorem halfLegal_eq (v : Word) : halfLegal v = decide (v.toNat ≤ 65535) := by
  rw [Bool.eq_iff_iff, halfLegal, beq_iff_eq, extractLsb'_eq_zero_iff v 16 16 rfl, decide_eq_true_iff]
  omega

theorem byteLegal_eq (v : Word) : byteLegal v = decide (v.toNat ≤ 255) := by
  rw [Bool.eq_iff_iff, byteLegal, beq_iff_eq, extractLsb'_eq_zero_iff v 8 24 rfl, decide_eq_true_iff]
  omega

theorem irqEnLegal_eq (v : Word) : irqEnLegal v = decide (v.toNat ≤ 3) := by
  rw [Bool.eq_iff_iff, irqEnLegal, beq_iff_eq, extractLsb'_eq_zero_iff v 2 30 rfl, decide_eq_true_iff]
  omega

/-- A cause's mask holds its bit alone (R121). -/
theorem getLsbD_mask (e : ErrCause) {k : Nat} (hk : k < 5) : e.mask.getLsbD k = true ↔ k = e.code := by
  cases e <;> interval_cases k <;> decide

/-- A raise sets the cause's bit and leaves the others (R120, R122). -/
theorem getLsbD_raise (s : State) (e : ErrCause) {k : Nat} (hk : k < 5) :
    (s.raise e).err.getLsbD k = true ↔ s.err.getLsbD k = true ∨ k = e.code := by
  rw [State.raise, BitVec.getLsbD_or, Bool.or_eq_true, getLsbD_mask e hk]

end Sys2Proof.Machine
end

