-- ==== Sys2Proof/Laws/LineBuf.lean ====
section
/-! SUPPORT. The laws of a line buffer (10_state.md R31; log 8): a read after a write, the canonical form is kept and
decides equality, and addition in 16 bits. -/

namespace Sys2Proof.Machine

@[simp] theorem lineGet_nil (i : Nat) : lineGet [] i = 0#16 := rfl

/-- An index below every listed one reads 0. -/
theorem lineGet_eq_zero_of_lt {l : LineBuf} {i : Nat} (h : ∀ e ∈ l, i < e.1) : lineGet l i = 0#16 := by
  induction l with
  | nil => rfl
  | cons a l ih =>
    obtain ⟨j, u⟩ := a
    have hj : i < j := h (j, u) (by simp)
    rw [lineGet, if_neg (by omega)]
    exact ih fun e he => h e (by simp [he])

theorem LineBuf.Wf.tail {a : Nat × Half} {l : LineBuf} (h : LineBuf.Wf (a :: l)) : LineBuf.Wf l :=
  ⟨(List.pairwise_cons.1 h.1).2, fun e he => h.2 e (by simp [he])⟩

theorem LineBuf.Wf.head_lt {a : Nat × Half} {l : LineBuf} (h : LineBuf.Wf (a :: l)) : ∀ e ∈ l, a.1 < e.1 :=
  (List.pairwise_cons.1 h.1).1

/-- The entries of a written buffer are the written one and old ones. -/
theorem mem_lineSet {l : LineBuf} {i : Nat} {v : Half} {e : Nat × Half} (h : e ∈ lineSet l i v) :
    e = (i, v) ∨ e ∈ l := by
  induction l with
  | nil =>
    rw [lineSet] at h
    split at h <;> simp_all
  | cons a l ih =>
    obtain ⟨j, u⟩ := a
    rw [lineSet] at h
    split at h
    · split at h <;> simp_all
    · split at h
      · split at h
        · exact .inr (List.mem_cons_of_mem _ h)
        · rcases List.mem_cons.1 h with h | h
          · exact .inl h
          · exact .inr (List.mem_cons_of_mem _ h)
      · rcases List.mem_cons.1 h with h | h
        · exact .inr (by simp [h])
        · exact (ih h).imp_right (List.mem_cons_of_mem _)

/-- A write keeps the canonical form. -/
theorem lineSet_wf {l : LineBuf} (h : l.Wf) (i : Nat) (v : Half) : (lineSet l i v).Wf := by
  induction l with
  | nil =>
    rw [lineSet]
    split <;> simp_all [LineBuf.Wf]
  | cons a l ih =>
    obtain ⟨j, u⟩ := a
    rw [lineSet]
    split
    · rename_i hij
      split
      · exact h
      · rename_i hv
        refine ⟨List.pairwise_cons.2 ⟨fun e he => ?_, h.1⟩, fun e he => ?_⟩
        · rcases List.mem_cons.1 he with rfl | he
          · exact hij
          · exact hij.trans (h.head_lt e he)
        · rcases List.mem_cons.1 he with rfl | he
          · exact hv
          · exact h.2 e he
    · split
      · rename_i hij
        split
        · exact h.tail
        · rename_i hv
          refine ⟨List.pairwise_cons.2 ⟨fun e he => ?_, h.tail.1⟩, fun e he => ?_⟩
          · exact hij ▸ h.head_lt e he
          · rcases List.mem_cons.1 he with rfl | he
            · exact hv
            · exact h.tail.2 e he
      · rename_i hlt hne
        have ih' := ih h.tail
        refine ⟨List.pairwise_cons.2 ⟨fun e he => ?_, ih'.1⟩, fun e he => ?_⟩
        · rcases mem_lineSet he with rfl | he
          · show j < i
            omega
          · exact h.head_lt e he
        · rcases List.mem_cons.1 he with rfl | he
          · exact h.2 _ (by simp)
          · exact ih'.2 e he

/-- A read after a write: the written entry has the value written, every other entry its old value. -/
theorem lineGet_lineSet {l : LineBuf} (h : l.Wf) (i : Nat) (v : Half) (k : Nat) :
    lineGet (lineSet l i v) k = if k = i then v else lineGet l k := by
  induction l with
  | nil =>
    rw [lineSet]
    split <;> simp_all [lineGet]
  | cons a l ih =>
    obtain ⟨j, u⟩ := a
    have hj := h.head_lt
    rw [lineSet]
    split
    · rename_i hij
      have hz : lineGet ((j, u) :: l) i = 0#16 := lineGet_eq_zero_of_lt fun e he => by
        rcases List.mem_cons.1 he with rfl | he
        · exact hij
        · exact hij.trans (hj e he)
      split
      · split
        · simp_all
        · rfl
      · rw [lineGet]
    · split
      · rename_i hij
        subst hij
        split
        · rename_i hv
          split
          · rename_i hk
            rw [hk, hv]
            exact lineGet_eq_zero_of_lt hj
          · rename_i hk
            rw [lineGet, if_neg hk]
        · rw [lineGet, lineGet]
          split <;> rfl
      · rename_i hne
        rw [lineGet, ih h.tail, lineGet]
        split
        · rename_i hk
          rw [if_neg (by omega)]
        · rfl

/-- Two buffers in canonical form with equal entries are equal. -/
theorem lineBuf_ext {l l' : LineBuf} (h : l.Wf) (h' : l'.Wf) (he : ∀ i, lineGet l i = lineGet l' i) : l = l' := by
  induction l generalizing l' with
  | nil =>
    cases l' with
    | nil => rfl
    | cons a l' =>
      have := he a.1
      simp [lineGet] at this
      exact absurd this.symm (h'.2 a (by simp))
  | cons a l ih =>
    obtain ⟨j, u⟩ := a
    have hu : u ≠ 0#16 := h.2 (j, u) (by simp)
    cases l' with
    | nil =>
      have := he j
      simp [lineGet] at this
      exact absurd this hu
    | cons b l' =>
      obtain ⟨j', u'⟩ := b
      have hu' : u' ≠ 0#16 := h'.2 (j', u') (by simp)
      have hjj : j = j' := by
        rcases Nat.lt_trichotomy j j' with hlt | heq | hlt
        · have hz : lineGet ((j', u') :: l') j = 0#16 := lineGet_eq_zero_of_lt fun e hm => by
            rcases List.mem_cons.1 hm with rfl | hm
            · exact hlt
            · exact hlt.trans (h'.head_lt e hm)
          have := he j
          rw [hz, lineGet, if_pos rfl] at this
          exact absurd this hu
        · exact heq
        · have hz : lineGet ((j, u) :: l) j' = 0#16 := lineGet_eq_zero_of_lt fun e hm => by
            rcases List.mem_cons.1 hm with rfl | hm
            · exact hlt
            · exact hlt.trans (h.head_lt e hm)
          have := he j'
          rw [hz, lineGet, if_pos rfl] at this
          exact absurd this.symm hu'
      subst hjj
      have huu : u = u' := by simpa [lineGet] using he j
      subst huu
      rw [ih h.tail h'.tail fun i => ?_]
      by_cases hi : i = j
      · subst hi
        rw [lineGet_eq_zero_of_lt h.head_lt, lineGet_eq_zero_of_lt h'.head_lt]
      · simpa [lineGet, hi] using he i

theorem lineAdd_wf {l : LineBuf} (h : l.Wf) (i : Nat) (d : Int) : (lineAdd l i d).Wf := lineSet_wf h _ _

theorem mem_lineAdd {l : LineBuf} {i : Nat} {d : Int} {e : Nat × Half} (h : e ∈ lineAdd l i d) :
    e.1 = i ∨ e ∈ l := (mem_lineSet h).imp_left (by rintro rfl; rfl)

/-- Adding to an entry, within 16 bits, adds over the integers and leaves every other entry (R105). -/
theorem lineAdd_toInt {l : LineBuf} (h : l.Wf) (i : Nat) (d : Int) (k : Nat)
    (hr : -32768 ≤ (lineGet l i).toInt + d ∧ (lineGet l i).toInt + d < 32768) :
    (lineGet (lineAdd l i d) k).toInt = (lineGet l k).toInt + if k = i then d else 0 := by
  rw [lineAdd, lineGet_lineSet h]
  split
  · rename_i hk
    subst hk
    rw [BitVec.toInt_ofInt, Int.bmod_def]
    omega
  · simp

end Sys2Proof.Machine
end

