-- ==== Sys2Proof/Laws/Quantizer.lean ====
section
/-! SUPPORT. The share function and the diffusion kernel (42_quantizer_dither.md R102 to R105). -/

namespace Sys2Proof.Machine

/-- The magnitude of a share (R102). -/
theorem abs_share (e : Int) (w : Nat) : |share e w| = ((e.natAbs * w / 16 : Nat) : Int) := by
  rw [share, abs_mul, Nat.abs_cast]
  split <;> simp

@[simp] theorem share_zero (w : Nat) : share 0 w = 0 := by simp [share]

/-- An error of at most 255 passes on at most floor(255 w / 16) (R102, R105). -/
theorem abs_share_le {e : Int} (he : |e| ≤ 255) (w : Nat) : |share e w| ≤ ((255 * w / 16 : Nat) : Int) := by
  rw [abs_share]
  have hn : e.natAbs ≤ 255 := by
    rw [← Int.natCast_natAbs] at he
    exact_mod_cast he
  exact_mod_cast Nat.div_le_div_right (Nat.mul_le_mul_right w hn)

/-- The right share of a pixel's error, entry by entry (R104). -/
theorem diffuseCur_toInt {cur : LineBuf} (h : cur.Wf) (e : Int) (x lw i : Nat)
    (hr : x + 1 < lw → |(lineGet cur (x + 1)).toInt| + |share e 7| < 32768) :
    (lineGet (diffuseCur e x lw cur) i).toInt =
      (lineGet cur i).toInt + if x + 1 < lw ∧ i = x + 1 then share e 7 else 0 := by
  unfold diffuseCur
  split
  · rename_i hx
    have := hr hx
    rw [lineAdd_toInt h]
    · simp [hx]
    · have := abs_lt.1 ((abs_add_le (lineGet cur (x + 1)).toInt (share e 7)).trans_lt this)
      omega
  · rename_i hx
    simp [hx]

theorem diffuseCur_wf {cur : LineBuf} (h : cur.Wf) (e : Int) (x lw : Nat) : (diffuseCur e x lw cur).Wf := by
  unfold diffuseCur
  split
  · exact lineAdd_wf h _ _
  · exact h

theorem diffuseNxt_wf {nxt : LineBuf} (h : nxt.Wf) (e : Int) (x y lw lh : Nat) :
    (diffuseNxt e x y lw lh nxt).Wf := by
  unfold diffuseNxt
  dsimp only
  repeat' split
  all_goals first | exact h | exact lineAdd_wf (lineAdd_wf (lineAdd_wf h _ _) _ _) _ _ |
    exact lineAdd_wf (lineAdd_wf h _ _) _ _ | exact lineAdd_wf h _ _

theorem mem_diffuseCur {cur : LineBuf} {e : Int} {x lw : Nat} {a : Nat × Half} (h : a ∈ diffuseCur e x lw cur) :
    a.1 < lw ∨ a ∈ cur := by
  unfold diffuseCur at h
  split at h
  · exact (mem_lineAdd h).imp_left (by omega)
  · exact .inr h

theorem mem_diffuseNxt {nxt : LineBuf} {e : Int} {x y lw lh : Nat} {a : Nat × Half} (hx : x < lw)
    (h : a ∈ diffuseNxt e x y lw lh nxt) : a.1 < lw ∨ a ∈ nxt := by
  unfold diffuseNxt at h
  dsimp only at h
  split at h
  · have key : ∀ {a : Nat × Half}, a ∈ lineAdd (if 1 ≤ x then lineAdd nxt (x - 1) (share e 3) else nxt) x (share e 5) →
        a.1 < lw ∨ a ∈ nxt := by
      intro a ha
      rcases mem_lineAdd ha with ha | ha
      · omega
      · split at ha
        · exact (mem_lineAdd ha).imp_left (by omega)
        · exact .inr ha
    split at h
    · rcases mem_lineAdd h with h | h
      · omega
      · exact key h
    · exact key h
  · exact .inr h

/-- The shares a pixel's error passes to the next row, entry by entry (R104). -/
theorem diffuseNxt_toInt {nxt : LineBuf} (h : nxt.Wf) (e : Int) (x y lw lh i : Nat)
    (hr : ∀ j, |(lineGet nxt j).toInt| ≤ 1000) (he : |e| ≤ 255) :
    (lineGet (diffuseNxt e x y lw lh nxt) i).toInt = (lineGet nxt i).toInt +
      if y + 1 < lh then
        (if 1 ≤ x ∧ i + 1 = x then share e 3 else 0) + (if i = x then share e 5 else 0) +
          (if x + 1 < lw ∧ i = x + 1 then share e 1 else 0)
      else 0 := by
  have h3 := abs_le.1 (abs_share_le he 3)
  have h5 := abs_le.1 (abs_share_le he 5)
  have h1 := abs_le.1 (abs_share_le he 1)
  norm_num at h3 h5 h1
  unfold diffuseNxt
  dsimp only
  split
  · obtain ⟨n₁, hn₁⟩ : ∃ n₁, n₁ = if 1 ≤ x then lineAdd nxt (x - 1) (share e 3) else nxt := ⟨_, rfl⟩
    rw [← hn₁]
    have wf₁ : LineBuf.Wf n₁ := by
      rw [hn₁]
      split
      · exact lineAdd_wf h _ _
      · exact h
    have e₁ : ∀ j, (lineGet n₁ j).toInt = (lineGet nxt j).toInt + if 1 ≤ x ∧ j + 1 = x then share e 3 else 0 := by
      intro j
      rw [hn₁]
      split
      · rename_i hx
        have := abs_le.1 (hr (x - 1))
        rw [lineAdd_toInt h _ _ _ (by omega)]
        congr 1
        by_cases hj : j = x - 1
        · rw [if_pos hj, if_pos (by omega)]
        · rw [if_neg hj, if_neg (by omega)]
      · rename_i hx
        simp [hx]
    have e₂ : ∀ j, (lineGet (lineAdd n₁ x (share e 5)) j).toInt =
        (lineGet nxt j).toInt + (if 1 ≤ x ∧ j + 1 = x then share e 3 else 0) + if j = x then share e 5 else 0 := by
      intro j
      have := abs_le.1 (hr x)
      have hx := e₁ x
      rw [if_neg (by omega)] at hx
      rw [lineAdd_toInt wf₁ _ _ _ (by omega), e₁]
    split
    · rename_i hx
      have := abs_le.1 (hr (x + 1))
      have hx1 := e₂ (x + 1)
      rw [if_neg (by omega), if_neg (by omega)] at hx1
      rw [lineAdd_toInt (lineAdd_wf wf₁ _ _) _ _ _ (by omega), e₂]
      simp only [hx, true_and]
      omega
    · rename_i hx
      rw [e₂]
      simp only [hx, false_and, if_false]
      omega
  · simp

/-- An error is in range when the threshold is a byte and the corrected value is in range (R101, R105). -/
theorem abs_quantError_le {c lt : Int} (hc : -255 ≤ c ∧ c ≤ 510) (hl : 0 ≤ lt ∧ lt ≤ 255) :
    |quantError c (decide (c < lt))| ≤ 255 := by
  rw [quantError, abs_le]
  by_cases h : c < lt <;> simp [h] <;> omega

end Sys2Proof.Machine
end

