-- ==== Sys2Proof/Laws/Push.lean ====
section
/-! SUPPORT. What a taken pixel push leaves, field by field (42_quantizer_dither.md R96, R106; 43_packer.md R110, R111). -/

namespace Sys2Proof.Machine

/-- The pixel at the frame position ends its row. -/
abbrev State.RowEnd (s : State) : Prop := s.x.toNat + 1 = s.lw.toNat

/-- The pixel at the frame position ends a byte or its row (R111). -/
abbrev State.ByteEnd (s : State) : Prop := s.x.toNat % 8 = 7 ∨ s.RowEnd

variable (s : State) (smp : Byte)

theorem acceptSample_x :
    (s.acceptSample smp).x = if s.RowEnd then 0#16 else BitVec.ofNat 16 (s.x.toNat + 1) := by
  unfold State.acceptSample State.advance
  simp only [State.emitByte_x, State.packBit_x, State.diffuse_x, State.emitByte_lw, State.packBit_lw, State.diffuse_lw]
  split <;> rfl

theorem acceptSample_y :
    (s.acceptSample smp).y = if s.RowEnd then BitVec.ofNat 16 (s.y.toNat + 1) else s.y := by
  unfold State.acceptSample State.advance
  simp only [State.emitByte_x, State.packBit_x, State.diffuse_x, State.emitByte_lw, State.packBit_lw, State.diffuse_lw,
    State.emitByte_y, State.packBit_y, State.diffuse_y]
  split <;> simp

theorem acceptSample_seq :
    (s.acceptSample smp).seq = if s.RowEnd ∧ s.y.toNat + 1 = s.lh.toNat then SeqState.drain else s.seq := by
  unfold State.acceptSample State.advance
  simp only [State.emitByte_x, State.packBit_x, State.diffuse_x, State.emitByte_lw, State.packBit_lw, State.diffuse_lw,
    State.emitByte_y, State.packBit_y, State.diffuse_y, State.emitByte_lh, State.packBit_lh, State.diffuse_lh]
  by_cases h : s.x.toNat + 1 = s.lw.toNat <;> simp [h, State.RowEnd]

theorem acceptSample_cur :
    (s.acceptSample smp).cur = if s.RowEnd then (s.diffuse smp).nxt else (s.diffuse smp).cur := by
  unfold State.acceptSample State.advance
  simp only [State.emitByte_x, State.packBit_x, State.diffuse_x, State.emitByte_lw, State.packBit_lw, State.diffuse_lw]
  split <;> simp

theorem acceptSample_nxt :
    (s.acceptSample smp).nxt = if s.RowEnd then [] else (s.diffuse smp).nxt := by
  unfold State.acceptSample State.advance
  simp only [State.emitByte_x, State.packBit_x, State.diffuse_x, State.emitByte_lw, State.packBit_lw, State.diffuse_lw]
  split <;> simp

theorem acceptSample_sr : (s.acceptSample smp).sr =
    if s.ByteEnd then 0#8 else putBit s.sr (7 - s.x.toNat % 8) (s.black smp) := by
  have h : (s.acceptSample smp).sr = (((s.diffuse smp).packBit (s.black smp)).emitByte).sr := by
    unfold State.acceptSample State.advance
    split <;> rfl
  rw [h, State.emitByte]
  simp only [State.packBit_x, State.diffuse_x, State.packBit_lw, State.diffuse_lw]
  split <;> simp

theorem acceptSample_outFifo : (s.acceptSample smp).outFifo =
    s.outFifo ++ if s.ByteEnd then [putBit s.sr (7 - s.x.toNat % 8) (s.black smp)] else [] := by
  have h : (s.acceptSample smp).outFifo = (((s.diffuse smp).packBit (s.black smp)).emitByte).outFifo := by
    unfold State.acceptSample State.advance
    split <;> rfl
  rw [h, State.emitByte]
  simp only [State.packBit_x, State.diffuse_x, State.packBit_lw, State.diffuse_lw]
  split <;> simp

/-- Bit j of a byte whose bit k was written. -/
theorem getLsbD_putBit (r : Byte) {k : Nat} (hk : k < 8) (b : Bool) (j : Nat) :
    (putBit r k b).getLsbD j = if j = k then b else r.getLsbD j := by
  have h1 : (1#8 <<< k).getLsbD j = decide (j = k) := by
    rw [BitVec.getLsbD_shiftLeft, BitVec.getLsbD_one]
    by_cases hj : j = k
    · simp [hj, hk]
    · simp [hj]
      omega
  unfold putBit
  cases b
  · simp only [Bool.false_eq_true, if_false, BitVec.getLsbD_and, BitVec.getLsbD_not, h1]
    by_cases hj : j = k
    · simp [hj]
    · by_cases h8 : j < 8
      · simp [hj, h8]
      · simp [hj, BitVec.getLsbD_of_ge _ _ (Nat.le_of_not_lt h8)]
  · simp only [if_true, BitVec.getLsbD_or, h1]
    by_cases hj : j = k <;> simp [hj]

end Sys2Proof.Machine
end

