-- ==== Sys2Proof/Laws/Invariant.lean ====
section
/-! SUPPORT. How each effect of a transaction keeps the parts of `State.Inv` (42_quantizer_dither.md R105, R106;
43_packer.md R112; 44_frame_output.md R117). -/

namespace Sys2Proof.Machine

theorem inReady_iff {s : State} : s.inReady = true ↔ s.seq = .run ∧ s.outFifo.length < s.params.ofifoDepth := by
  simp [State.inReady]

theorem frameActive_iff {s : State} : s.frameActive = true ↔ s.seq = .run ∨ s.seq = .drain := by
  simp [State.frameActive]

theorem startAccepted_iff {s : State} : s.startAccepted = true ↔
    (s.seq ≠ .run ∧ s.seq ≠ .drain) ∧ s.heightH ≠ 0#16 ∧ s.widthW ≠ 0#16 ∧ s.widthW.toNat ≤ s.params.maxWidth := by
  simp [State.startAccepted, State.frameActive, State.startParamsBad, and_assoc]

theorem curBound_le (x i : Nat) : curBound x i ≤ 252 := by
  unfold curBound
  split <;> omega

theorem nxtBound_le (x i : Nat) : nxtBound x i ≤ 141 := by
  unfold nxtBound
  repeat' split
  all_goals omega

/-- The corrected value is in range when CUR is (R98, R105). -/
theorem corrected_bounds {s : State} (smp : Byte) (h : |(lineGet s.cur s.x.toNat).toInt| ≤ 252) :
    -255 ≤ s.corrected smp ∧ s.corrected smp ≤ 510 := by
  have := smp.isLt
  have := abs_le.1 h
  unfold State.corrected sampleValue
  split <;> omega

/-- The error of the next dithered pixel is in range when CUR is (R101, R105). -/
theorem quantError_bounds {s : State} (smp : Byte) (hd : s.ld = true) (h : |(lineGet s.cur s.x.toNat).toInt| ≤ 252) :
    |quantError (s.corrected smp) (s.black smp)| ≤ 255 := by
  have := s.lt.isLt
  have hb : s.black smp = decide (s.corrected smp < (s.lt.toNat : Int)) := by simp [State.black, hd]
  rw [hb]
  exact abs_quantError_le (corrected_bounds smp h) (by omega)

theorem diffuse_of_thresholding {s : State} (smp : Byte) (h : s.ld = false) : s.diffuse smp = s := by
  simp [State.diffuse, h]

theorem diffuse_of_dithering {s : State} (smp : Byte) (h : s.ld = true) :
    s.diffuse smp = s.distribute (quantError (s.corrected smp) (s.black smp)) := by
  simp [State.diffuse, h]

/-- What the kernel leaves in CUR stays in range for the next column (R105). -/
theorem diffuse_cur_range {s : State} (h : s.Inv) (hr : s.seq = .run) (smp : Byte) (i : Nat) :
    |(lineGet (s.diffuse smp).cur i).toInt| ≤ curBound (s.x.toNat + 1) i := by
  have hc := h.curRange hr
  have hx : |(lineGet s.cur s.x.toNat).toInt| ≤ 252 := (hc _).trans (curBound_le _ _)
  cases hd : s.ld with
  | false =>
    rw [diffuse_of_thresholding smp hd, (h.thresholdBuffers hr hd).1]
    simp [curBound]
    split <;> omega
  | true =>
    have he := quantError_bounds smp hd hx
    have h7 := abs_share_le he 7
    norm_num at h7
    rw [diffuse_of_dithering smp hd, State.distribute_cur, diffuseCur_toInt h.curWf]
    · have hi := abs_le.1 (hc i)
      have h7 := abs_le.1 h7
      rw [abs_le]
      unfold curBound at hi ⊢
      split_ifs at * <;> omega
    · intro _
      have := (hc (s.x.toNat + 1)).trans (curBound_le _ _)
      omega

/-- What the kernel leaves in NXT stays in range for the next column (R105). -/
theorem diffuse_nxt_range {s : State} (h : s.Inv) (hr : s.seq = .run) (smp : Byte) (i : Nat) :
    |(lineGet (s.diffuse smp).nxt i).toInt| ≤ nxtBound (s.x.toNat + 1) i := by
  have hn := h.nxtRange hr
  have hx : |(lineGet s.cur s.x.toNat).toInt| ≤ 252 := (h.curRange hr _).trans (curBound_le _ _)
  have hb : ∀ x j, 0 ≤ nxtBound x j := by
    intro x j
    unfold nxtBound
    repeat' split
    all_goals omega
  cases hd : s.ld with
  | false =>
    rw [diffuse_of_thresholding smp hd, (h.thresholdBuffers hr hd).2]
    simpa using hb _ _
  | true =>
    have he := quantError_bounds smp hd hx
    have h3 := abs_le.1 (abs_share_le he 3)
    have h5 := abs_le.1 (abs_share_le he 5)
    have h1 := abs_le.1 (abs_share_le he 1)
    norm_num at h3 h5 h1
    rw [diffuse_of_dithering smp hd, State.distribute_nxt,
      diffuseNxt_toInt h.nxtWf _ _ _ _ _ _ (fun j => (hn j).trans ((nxtBound_le _ _).trans (by omega))) he]
    have := abs_le.1 (hn i)
    rw [abs_le]
    unfold nxtBound at this ⊢
    split_ifs at * <;> omega

theorem diffuse_cur_wf {s : State} (h : s.cur.Wf) (smp : Byte) : (s.diffuse smp).cur.Wf := by
  unfold State.diffuse
  split
  · exact diffuseCur_wf h _ _ _
  · exact h

theorem diffuse_nxt_wf {s : State} (h : s.nxt.Wf) (smp : Byte) : (s.diffuse smp).nxt.Wf := by
  unfold State.diffuse
  split
  · exact diffuseNxt_wf h _ _ _ _ _
  · exact h

theorem diffuse_cur_index {s : State} (h : ∀ e ∈ s.cur, e.1 < s.lw.toNat) (smp : Byte) :
    ∀ e ∈ (s.diffuse smp).cur, e.1 < s.lw.toNat := by
  intro e he
  unfold State.diffuse at he
  split at he
  · exact (mem_diffuseCur he).elim id (h e)
  · exact h e he

theorem diffuse_nxt_index {s : State} (hx : s.x.toNat < s.lw.toNat) (h : ∀ e ∈ s.nxt, e.1 < s.lw.toNat) (smp : Byte) :
    ∀ e ∈ (s.diffuse smp).nxt, e.1 < s.lw.toNat := by
  intro e he
  unfold State.diffuse at he
  split at he
  · exact (mem_diffuseNxt hx he).elim id (h e)
  · exact h e he

/-- The invariant does not read what `answer` writes. -/
theorem inv_answer {s : State} (h : s.Inv) (r : Option Word) : (s.answer r).Inv :=
  ⟨h.1, h.2, h.3, h.4, h.5, h.6, h.7, h.8, h.9, h.10, h.11, h.12, h.13, h.14⟩

/-- Raising an error keeps the invariant (60_exceptions.md R122). -/
theorem inv_raise {s : State} (h : s.Inv) (e : ErrCause) : (s.raise e).Inv :=
  ⟨h.1, h.2, h.3, h.4, h.5, h.6, h.7, h.8, h.9, h.10, h.11, h.12, h.13, h.14⟩

/-- Writing the read/write registers keeps the invariant (70_reset_and_hazards.md R138). -/
theorem inv_withRegs {s : State} (h : s.Inv) (d : Bool) (w hh : Half) (t : Byte) (p : Word) (de ee : Bool) :
    (s.withRegs d w hh t p de ee).Inv :=
  ⟨h.1, h.2, h.3, h.4, h.5, h.6, h.7, h.8, h.9, h.10, h.11, h.12, h.13, h.14⟩

/-- A state with no active frame satisfies the invariant when OF is empty and the buffers are canonical. -/
theorem inv_of_quiet {s : State} (hs : s.frameActive = false) (hf : s.outFifo = [])
    (hp : s.seq = .done → s.x = 0#16 ∧ s.y = s.lh) (hc : s.cur.Wf) (hn : s.nxt.Wf) : s.Inv := by
  have hr : s.seq ≠ .run := fun h => by simp [State.frameActive, h] at hs
  have hd : s.seq ≠ .drain := fun h => by simp [State.frameActive, h] at hs
  refine ⟨by simp [hf], fun _ => hf, ?_, fun h => hp (h.resolve_left hd), ?_, ?_, hc, hn, ?_, ?_, ?_, ?_, ?_, ?_⟩
  all_goals
    intro h
    simp_all

theorem wf_nil : LineBuf.Wf [] := ⟨List.Pairwise.nil, by simp⟩

/-- A started frame satisfies the invariant (41_commands.md R91). -/
theorem inv_startFrame {s : State} (ha : s.startAccepted = true) : s.startFrame.Inv := by
  obtain ⟨-, hh, hw, hm⟩ := startAccepted_iff.1 ha
  have hw' : 0 < s.widthW.toNat := Nat.pos_of_ne_zero fun h => hw (BitVec.eq_of_toNat_eq h)
  have hh' : 0 < s.heightH.toNat := Nat.pos_of_ne_zero fun h => hh (BitVec.eq_of_toNat_eq h)
  refine ⟨?_, ?_, ?_, ?_, ?_, ?_, wf_nil, wf_nil, ?_, ?_, ?_, ?_, ?_, ?_⟩
  · simpa [headerBytes, le16] using s.params.ofifoDepth_ge
  · simp [State.frameActive]
  · simp
  · simp
  · exact fun _ => ⟨hw', hm, hh'⟩
  · exact fun _ => ⟨hw', hh'⟩
  · simp
  · simp
  · simp
  · intro _ i
    simp [curBound]
    split <;> omega
  · intro _ i
    simp [nxtBound]
    repeat' split
    all_goals omega
  · simp

/-- A taken pixel push keeps the invariant (42_quantizer_dither.md R105, R106; 43_packer.md R112). -/
theorem inv_acceptSample {s : State} (h : s.Inv) (hr : s.inReady = true) (smp : Byte) : (s.acceptSample smp).Inv := by
  obtain ⟨hs, hf⟩ := inReady_iff.1 hr
  obtain ⟨hx, hy⟩ := h.position hs
  obtain ⟨hw, hm, hh⟩ := h.frameSize (by simp [State.frameActive, hs])
  have hxl := s.lw.isLt
  have hyl := s.lh.isLt
  have hx1 : (BitVec.ofNat 16 (s.x.toNat + 1)).toNat = s.x.toNat + 1 := by simp; omega
  have hy1 : (BitVec.ofNat 16 (s.y.toNat + 1)).toNat = s.y.toNat + 1 := by simp; omega
  have hcur := diffuse_cur_range h hs smp
  have hnxt := diffuse_nxt_range h hs smp
  have hseq : (s.acceptSample smp).seq = .run → ¬ (s.RowEnd ∧ s.y.toNat + 1 = s.lh.toNat) := by
    intro hq hc
    rw [acceptSample_seq, if_pos hc] at hq
    cases hq
  have hend : (s.acceptSample smp).seq ≠ .run → s.RowEnd ∧ s.y.toNat + 1 = s.lh.toNat := by
    intro hq
    by_contra hc
    rw [acceptSample_seq, if_neg hc] at hq
    exact hq hs
  refine ⟨?_, ?_, ?_, ?_, ?_, ?_, ?_, ?_, ?_, ?_, ?_, ?_, ?_, ?_⟩
  · rw [acceptSample_outFifo, State.acceptSample_params, List.length_append]
    split <;> simp <;> omega
  · intro ha
    rw [State.frameActive, acceptSample_seq, hs] at ha
    split at ha <;> simp at ha
  · intro hq
    rw [acceptSample_outFifo, if_pos (Or.inr (hend (by simp [hq])).1)]
    simp
  · intro hq
    obtain ⟨hc, hc'⟩ := hend (by rcases hq with hq | hq <;> simp [hq])
    rw [acceptSample_x, acceptSample_y, State.acceptSample_lh, if_pos hc, if_pos hc]
    refine ⟨rfl, BitVec.eq_of_toNat_eq ?_⟩
    rw [hy1, hc']
  · simpa using fun _ => ⟨hw, hm, hh⟩
  · intro hq
    rw [acceptSample_x, acceptSample_y, State.acceptSample_lw, State.acceptSample_lh]
    have := hseq hq
    by_cases hc : s.RowEnd
    · rw [if_pos hc, if_pos hc, hy1]
      refine ⟨hw, ?_⟩
      have : s.y.toNat + 1 ≠ s.lh.toNat := fun h' => this ⟨hc, h'⟩
      omega
    · rw [if_neg hc, if_neg hc, hx1]
      have hc' : s.x.toNat + 1 ≠ s.lw.toNat := hc
      omega
  · rw [acceptSample_cur]
    split
    · exact diffuse_nxt_wf h.nxtWf smp
    · exact diffuse_cur_wf h.curWf smp
  · rw [acceptSample_nxt]
    split
    · exact wf_nil
    · exact diffuse_nxt_wf h.nxtWf smp
  · intro _
    rw [acceptSample_cur, State.acceptSample_lw]
    split
    · exact diffuse_nxt_index hx (h.nxtIndex hs) smp
    · exact diffuse_cur_index (h.curIndex hs) smp
  · intro _
    rw [acceptSample_nxt, State.acceptSample_lw]
    split
    · simp
    · exact diffuse_nxt_index hx (h.nxtIndex hs) smp
  · intro _ hd
    rw [State.acceptSample_ld] at hd
    obtain ⟨hc0, hn0⟩ := h.thresholdBuffers hs hd
    rw [acceptSample_cur, acceptSample_nxt, diffuse_of_thresholding smp hd, hc0, hn0]
    split <;> simp
  · intro _ i
    rw [acceptSample_cur, acceptSample_x]
    split
    · refine (hnxt i).trans ?_
      have := nxtBound_le (s.x.toNat + 1) i
      unfold curBound
      split <;> omega
    · rw [hx1]
      exact hcur i
  · intro _ i
    rw [acceptSample_nxt, acceptSample_x]
    split
    · simp [nxtBound]
      repeat' split
      all_goals omega
    · rw [hx1]
      exact hnxt i
  · intro _ k hk
    rw [acceptSample_sr]
    split
    · simp
    · rename_i hb
      rw [acceptSample_x, if_neg (fun hc => hb (Or.inr hc)), hx1] at hk
      have hb' : ¬ (s.x.toNat % 8 = 7) := fun h' => hb (Or.inl h')
      rw [getLsbD_putBit _ (by omega), if_neg (by omega)]
      exact h.partialByte hs k (by omega)

/-- ABORT keeps the invariant (41_commands.md R92). -/
theorem inv_abandonFrame {s : State} (h : s.Inv) : s.abandonFrame.Inv :=
  inv_of_quiet (by simp [State.frameActive]) rfl (by simp) h.curWf h.nxtWf

/-- CLEAR keeps the invariant (R93). -/
theorem inv_clear {s : State} (h : s.Inv) : s.clear.Inv := by
  by_cases ha : s.frameActive = true
  · have : s.clear = { s with err := 0#5 } := by
      rcases frameActive_iff.1 ha with hq | hq <;> simp [State.clear, hq, SeqState.afterClear]
    rw [this]
    exact ⟨h.1, h.2, h.3, h.4, h.5, h.6, h.7, h.8, h.9, h.10, h.11, h.12, h.13, h.14⟩
  · rw [Bool.not_eq_true] at ha
    refine inv_of_quiet ?_ (h.quietFifo ha) ?_ h.curWf h.nxtWf
    all_goals
      revert ha
      cases hq : s.seq <;> simp [State.frameActive, hq, SeqState.afterClear]

/-- A taken pop keeps the invariant (44_frame_output.md R117). -/
theorem inv_popTo {s : State} (h : s.Inv) {b : Byte} {rest : List Byte} (hf : s.outFifo = b :: rest) :
    (s.popTo rest).Inv := by
  have ha : s.frameActive = true := by
    by_contra hn
    rw [Bool.not_eq_true] at hn
    simp [h.quietFifo hn] at hf
  have hlen : rest.length ≤ s.params.ofifoDepth := by
    have := h.fifoFits
    rw [hf, List.length_cons] at this
    omega
  by_cases hd : s.seq = .drain ∧ rest = []
  · refine inv_of_quiet ?_ hd.2 (fun _ => h.finished (.inl hd.1)) h.curWf h.nxtWf
    simp [State.frameActive, SeqState.afterPop, hd]
  · have hq : (s.popTo rest).seq = s.seq := by simp [SeqState.afterPop, hd]
    refine ⟨hlen, ?_, ?_, fun hs => h.finished (hq ▸ hs), ?_, ?_, h.7, h.8, ?_, ?_, ?_, ?_, ?_, ?_⟩
    · intro hn
      rw [State.frameActive, hq] at hn
      rw [State.frameActive] at ha
      simp [ha] at hn
    · intro hs
      rw [hq] at hs
      exact fun hrest => hd ⟨hs, hrest⟩
    · intro _
      exact h.frameSize ha
    all_goals
      intro hs
      rw [hq] at hs
    · exact h.position hs
    · exact h.curIndex hs
    · exact h.nxtIndex hs
    · exact h.thresholdBuffers hs
    · exact h.curRange hs
    · exact h.nxtRange hs
    · exact h.partialByte hs

end Sys2Proof.Machine
end

