-- ==== Sys2Proof/Laws/Packer.lean ====
section
/-! SUPPORT. The packed bytes and bitmap of the reference frame (43_packer.md R109 to R114; 30_encoding.md R58). -/

namespace Sys2Proof.Machine

/-- Pixel 8j + b of a row is bit 7 - b of byte j (R110, R112). -/
theorem getLsbD_packedByte (w : Nat) (black : Nat → Nat → Bool) (y j : Nat) {b : Nat} (hb : b < 8) :
    (packedByte w black y j).getLsbD (7 - b) = (decide (8 * j + b < w) && black (8 * j + b) y) := by
  let px := fun b => decide (8 * j + b < w) && black (8 * j + b) y
  have h := @BitVec.getMsbD_ofBoolListBE [px 0, px 1, px 2, px 3, px 4, px 5, px 6, px 7] b
  rw [BitVec.getMsbD, decide_eq_true (by exact hb), Bool.true_and] at h
  refine h.trans ?_
  interval_cases b <;> rfl

/-- A byte with the bits of a packed byte is that byte. -/
theorem eq_packedByte {r : Byte} {w : Nat} {black : Nat → Nat → Bool} {y j : Nat}
    (h : ∀ b, b < 8 → r.getLsbD (7 - b) = (decide (8 * j + b < w) && black (8 * j + b) y)) :
    r = packedByte w black y j := by
  apply BitVec.eq_of_getLsbD_eq
  intro i hi
  have := (h (7 - i) (by omega)).trans (getLsbD_packedByte w black y j (b := 7 - i) (by omega)).symm
  rwa [show 7 - (7 - i) = i by omega] at this

theorem packedBitmap_succ (w h : Nat) (black : Nat → Nat → Bool) : packedBitmap w (h + 1) black =
    packedBitmap w h black ++ (List.range ((w + 7) / 8)).map fun j => packedByte w black h j := by
  simp [packedBitmap, List.range_succ]

/-- A bitmap has BPL bytes for each row (R113). -/
theorem length_packedBitmap (w h : Nat) (black : Nat → Nat → Bool) :
    (packedBitmap w h black).length = (w + 7) / 8 * h := by
  simp [packedBitmap, Nat.mul_comm]

/-- Byte j of row y stands at y · BPL + j (R58). -/
theorem getD_packedBitmap {w h y j : Nat} (black : Nat → Nat → Bool) (hy : y < h) (hj : j < (w + 7) / 8) :
    (packedBitmap w h black).getD (y * ((w + 7) / 8) + j) 0#8 = packedByte w black y j := by
  induction h with
  | zero => omega
  | succ h ih =>
    rw [packedBitmap_succ]
    rcases Nat.lt_or_eq_of_le (Nat.le_of_lt_succ hy) with hlt | rfl
    · rw [List.getD_append _ _ _ _ _, ih hlt]
      have := Nat.mul_le_mul_right ((w + 7) / 8) hlt
      rw [Nat.succ_mul] at this
      rw [length_packedBitmap, Nat.mul_comm _ h]
      omega
    · rw [List.getD_append_right _ _ _ _ (by rw [length_packedBitmap, Nat.mul_comm]; omega), length_packedBitmap,
        Nat.mul_comm, Nat.add_sub_cancel_left, List.getD_eq_getElem _ _ (by simpa using hj)]
      simp

end Sys2Proof.Machine
end

