-- ==== Sys2Proof/Laws/Frame.lean ====
section
/-! SUPPORT. The machine against the reference frame (42_quantizer_dither.md R95 to R107; 43_packer.md R109 to R113;
44_frame_output.md R116 to R118): a relation between the samples pushed, the bytes delivered and the state, which START
establishes and every taken transaction of an active frame keeps. -/

namespace Sys2Proof.Machine

/-- The error of pixel k; 0 for a pixel not visited yet. -/
def errAt (px : List (Bool × Int)) (k : Nat) : Int := (px.getD k (false, 0)).2

/-- The error passed on to pixel (i, y) by its visited neighbours (R103, R104). -/
def pulled (w : Nat) (px : List (Bool × Int)) (y i : Nat) : Int :=
  (if 1 ≤ i then share (errAt px (y * w + i - 1)) 7 else 0)
    + (if 1 ≤ y ∧ i + 1 < w then share (errAt px ((y - 1) * w + i + 1)) 3 else 0)
    + (if 1 ≤ y then share (errAt px ((y - 1) * w + i)) 5 else 0)
    + (if 1 ≤ y ∧ 1 ≤ i then share (errAt px ((y - 1) * w + i - 1)) 1 else 0)

/-- The error passed on to column i of the next row by the visited pixels of row y. -/
def pulledBelow (w : Nat) (px : List (Bool × Int)) (y i : Nat) : Int :=
  (if i + 1 < w then share (errAt px (y * w + i + 1)) 3 else 0) + share (errAt px (y * w + i)) 5
    + (if 1 ≤ i then share (errAt px (y * w + i - 1)) 1 else 0)

theorem errAt_append (px : List (Bool × Int)) (a : Bool × Int) (k : Nat) :
    errAt (px ++ [a]) k = if k = px.length then a.2 else errAt px k := by
  unfold errAt
  rcases Nat.lt_trichotomy k px.length with h | h | h
  · rw [if_neg (by omega), List.getD_append _ _ _ _ h]
  · subst h
    simp
  · rw [if_neg (by omega), List.getD_eq_default _ _ (by simp; omega), List.getD_eq_default _ _ (by omega)]

theorem errAt_of_ge {px : List (Bool × Int)} {k : Nat} (h : px.length ≤ k) : errAt px k = 0 := by
  rw [errAt, List.getD_eq_default _ _ h]

theorem classify_append (w lt : Nat) (ld : Bool) (l : List Byte) (smp : Byte) :
    classify w lt ld (l ++ [smp]) = classify w lt ld l ++ [nextPixel w lt ld (classify w lt ld l) smp] := by
  simp [classify, List.foldl_append]

@[simp] theorem length_classify (w lt : Nat) (ld : Bool) (l : List Byte) : (classify w lt ld l).length = l.length := by
  induction l using List.reverseRecOn with
  | nil => rfl
  | append_singleton l a ih => simp [classify_append, ih]

theorem classify_prefix (w lt : Nat) (ld : Bool) (l m : List Byte) :
    classify w lt ld l <+: classify w lt ld (l ++ m) := by
  induction m using List.reverseRecOn with
  | nil => simp
  | append_singleton m a ih =>
    rw [← List.append_assoc, classify_append]
    exact ih.trans (List.prefix_append _ _)

/-- The next pixel in terms of what its neighbours pass on. -/
theorem nextPixel_eq {w x y : Nat} (lt : Nat) (ld : Bool) {px : List (Bool × Int)} (smp : Byte) (hx : x < w)
    (hk : px.length = y * w + x) :
    nextPixel w lt ld px smp =
      (decide ((smp.toNat : Int) + pulled w px y x < lt),
        if ld then quantError ((smp.toNat : Int) + pulled w px y x)
          (decide ((smp.toNat : Int) + pulled w px y x < lt)) else 0) := by
  have hm : px.length % w = x := by rw [hk, Nat.mul_comm, Nat.mul_add_mod, Nat.mod_eq_of_lt hx]
  have hy : w ≤ px.length ↔ 1 ≤ y := by
    rw [hk]
    cases y with
    | zero => simp; omega
    | succ y => simp [Nat.succ_mul]; omega
  have hc : (smp.toNat : Int)
      + (if 1 ≤ x then share (px.getD (px.length - 1) (false, 0)).2 7 else 0)
      + (if w ≤ px.length ∧ x + 1 < w then share (px.getD (px.length - w + 1) (false, 0)).2 3 else 0)
      + (if w ≤ px.length then share (px.getD (px.length - w) (false, 0)).2 5 else 0)
      + (if w ≤ px.length ∧ 1 ≤ x then share (px.getD (px.length - w - 1) (false, 0)).2 1 else 0)
      = (smp.toNat : Int) + pulled w px y x := by
    simp only [hy, pulled, errAt]
    cases y with
    | zero => simp [hk]
    | succ y =>
      have e₁ : px.length - w = (y + 1 - 1) * w + x := by rw [hk, Nat.succ_mul, Nat.add_sub_cancel]; omega
      rw [e₁, hk]
      ring
  unfold nextPixel quantError
  simp only [hm, hc]

/-- The error of a pushed pixel as the machine computes it; 0 under thresholding (R99, R101). -/
def State.pushError (s : State) (smp : Byte) : Int :=
  if s.ld then quantError (s.corrected smp) (s.black smp) else 0

theorem diffuse_cur_toInt {s : State} (h : s.Inv) (hr : s.seq = .run) (smp : Byte) (i : Nat) :
    (lineGet (s.diffuse smp).cur i).toInt = (lineGet s.cur i).toInt +
      if s.x.toNat + 1 < s.lw.toNat ∧ i = s.x.toNat + 1 then share (s.pushError smp) 7 else 0 := by
  unfold State.pushError
  cases hd : s.ld with
  | false => simp [diffuse_of_thresholding smp hd]
  | true =>
    have hc := fun j => (h.curRange hr j).trans (curBound_le _ _)
    have h7 := abs_share_le (quantError_bounds smp hd (hc _)) 7
    norm_num at h7
    rw [diffuse_of_dithering smp hd, State.distribute_cur, diffuseCur_toInt h.curWf]
    · rfl
    · intro _
      have := hc (s.x.toNat + 1)
      omega

theorem diffuse_nxt_toInt {s : State} (h : s.Inv) (hr : s.seq = .run) (smp : Byte) (i : Nat) :
    (lineGet (s.diffuse smp).nxt i).toInt = (lineGet s.nxt i).toInt +
      if s.y.toNat + 1 < s.lh.toNat then
        (if 1 ≤ s.x.toNat ∧ i + 1 = s.x.toNat then share (s.pushError smp) 3 else 0)
          + (if i = s.x.toNat then share (s.pushError smp) 5 else 0)
          + (if s.x.toNat + 1 < s.lw.toNat ∧ i = s.x.toNat + 1 then share (s.pushError smp) 1 else 0)
      else 0 := by
  unfold State.pushError
  cases hd : s.ld with
  | false => simp [diffuse_of_thresholding smp hd]
  | true =>
    have he := quantError_bounds smp hd ((h.curRange hr _).trans (curBound_le _ _))
    rw [diffuse_of_dithering smp hd, State.distribute_nxt,
      diffuseNxt_toInt h.nxtWf _ _ _ _ _ _ (fun j => (h.nxtRange hr j).trans ((nxtBound_le _ _).trans (by omega))) he]
    rfl

/-- Pushing the pixel (x, y) adds its shares to what the columns of its row have been passed. -/
theorem pulled_append {w x y : Nat} {px : List (Bool × Int)} (a : Bool × Int)
    (hk : px.length = y * w + x) {i : Nat} (hi : i < w) :
    pulled w (px ++ [a]) y i = pulled w px y i + if x + 1 < w ∧ i = x + 1 then share a.2 7 else 0 := by
  have hrow : ∀ j, j < w → 1 ≤ y → errAt (px ++ [a]) ((y - 1) * w + j) = errAt px ((y - 1) * w + j) := by
    intro j hj hy
    rw [errAt_append, if_neg]
    obtain ⟨y, rfl⟩ : ∃ z, y = z + 1 := ⟨y - 1, by omega⟩
    rw [hk, Nat.succ_mul, Nat.add_sub_cancel]
    omega
  have t₃ : (if 1 ≤ y ∧ i + 1 < w then share (errAt (px ++ [a]) ((y - 1) * w + i + 1)) 3 else 0) =
      if 1 ≤ y ∧ i + 1 < w then share (errAt px ((y - 1) * w + i + 1)) 3 else 0 :=
    ite_congr rfl (fun hc => by rw [Nat.add_assoc, hrow (i + 1) hc.2 hc.1]) fun _ => rfl
  have t₅ : (if 1 ≤ y then share (errAt (px ++ [a]) ((y - 1) * w + i)) 5 else 0) =
      if 1 ≤ y then share (errAt px ((y - 1) * w + i)) 5 else 0 :=
    ite_congr rfl (fun hc => by rw [hrow i hi hc]) fun _ => rfl
  have t₁ : (if 1 ≤ y ∧ 1 ≤ i then share (errAt (px ++ [a]) ((y - 1) * w + i - 1)) 1 else 0) =
      if 1 ≤ y ∧ 1 ≤ i then share (errAt px ((y - 1) * w + i - 1)) 1 else 0 :=
    ite_congr rfl (fun hc => by rw [Nat.add_sub_assoc hc.2, hrow (i - 1) (by omega) hc.1]) fun _ => rfl
  have t₇ : (if 1 ≤ i then share (errAt (px ++ [a]) (y * w + i - 1)) 7 else 0) =
      (if 1 ≤ i then share (errAt px (y * w + i - 1)) 7 else 0) +
        if x + 1 < w ∧ i = x + 1 then share a.2 7 else 0 := by
    by_cases h7 : i = x + 1
    · have hz : errAt px (y * w + i - 1) = 0 := errAt_of_ge (by rw [hk]; omega)
      rw [if_pos (by omega), if_pos (by omega), if_pos (by omega), errAt_append, if_pos (by rw [hk]; omega), hz]
      simp
    · rw [if_neg (c := x + 1 < w ∧ i = x + 1) (fun hc => h7 hc.2), Int.add_zero]
      exact ite_congr rfl (fun hc => by rw [errAt_append, if_neg (by rw [hk]; omega)]) fun _ => rfl
  unfold pulled
  rw [t₃, t₅, t₁, t₇]
  ring

/-- Pushing the pixel (x, y) adds its shares to what the columns of the next row have been passed. -/
theorem pulledBelow_append {w x y : Nat} {px : List (Bool × Int)} (a : Bool × Int) (hx : x < w)
    (hk : px.length = y * w + x) {i : Nat} (hi : i < w) :
    pulledBelow w (px ++ [a]) y i = pulledBelow w px y i +
      ((if 1 ≤ x ∧ i + 1 = x then share a.2 3 else 0) + (if i = x then share a.2 5 else 0)
        + (if x + 1 < w ∧ i = x + 1 then share a.2 1 else 0)) := by
  have e₃ : errAt (px ++ [a]) (y * w + i + 1) = if i + 1 = x then a.2 else errAt px (y * w + i + 1) := by
    rw [errAt_append, hk]
    congr 1
    simp only [eq_iff_iff]
    omega
  have e₅ : errAt (px ++ [a]) (y * w + i) = if i = x then a.2 else errAt px (y * w + i) := by
    rw [errAt_append, hk]
    congr 1
    simp only [eq_iff_iff]
    omega
  have e₁ : 1 ≤ i → errAt (px ++ [a]) (y * w + i - 1) = if i = x + 1 then a.2 else errAt px (y * w + i - 1) := by
    intro hc
    rw [errAt_append, hk]
    congr 1
    simp only [eq_iff_iff]
    omega
  have z₃ : i + 1 = x → errAt px (y * w + i + 1) = 0 := fun hc => errAt_of_ge (by rw [hk]; omega)
  have z₅ : i = x → errAt px (y * w + i) = 0 := fun hc => errAt_of_ge (by rw [hk]; omega)
  have z₁ : i = x + 1 → errAt px (y * w + i - 1) = 0 := fun hc => errAt_of_ge (by rw [hk]; omega)
  unfold pulledBelow
  rw [e₃, e₅]
  by_cases h1 : 1 ≤ i
  · rw [if_pos h1, if_pos h1, e₁ h1]
    by_cases c3 : i + 1 = x <;> by_cases c5 : i = x <;> by_cases c1 : i = x + 1 <;> by_cases hw : i + 1 < w <;>
      simp_all <;> omega
  · rw [if_neg h1, if_neg h1]
    by_cases c3 : i + 1 = x <;> by_cases c5 : i = x <;> by_cases c1 : i = x + 1 <;> by_cases hw : i + 1 < w <;>
      simp_all <;> omega

/-- At the start of a row, what its columns have been passed is what the row above passed down. -/
theorem pulled_succ {w y : Nat} {px : List (Bool × Int)} (hk : px.length = (y + 1) * w) (i : Nat) :
    pulled w px (y + 1) i = pulledBelow w px y i := by
  have z : 1 ≤ i → errAt px ((y + 1) * w + i - 1) = 0 := fun hc => errAt_of_ge (by rw [hk]; omega)
  unfold pulled pulledBelow
  by_cases h1 : 1 ≤ i <;> simp_all

/-- Nothing has been passed down from a row not visited yet. -/
theorem pulledBelow_unvisited {w y : Nat} {px : List (Bool × Int)} (hk : px.length = y * w) (i : Nat) :
    pulledBelow w px y i = 0 := by
  have z₃ : errAt px (y * w + i + 1) = 0 := errAt_of_ge (by omega)
  have z₅ : errAt px (y * w + i) = 0 := errAt_of_ge (by omega)
  have z₁ : 1 ≤ i → errAt px (y * w + i - 1) = 0 := fun hc => errAt_of_ge (by omega)
  unfold pulledBelow
  by_cases h1 : 1 ≤ i <;> simp_all

/-- The bitmap bytes emitted before the pixel (x, y): every row above, and the full bytes of row y (R111, R113). -/
def emitted (w : Nat) (black : Nat → Nat → Bool) (y x : Nat) : List Byte :=
  packedBitmap w y black ++ (List.range (x / 8)).map fun j => packedByte w black y j

/-- The bitmap of fewer rows is an initial part of the bitmap. -/
theorem packedBitmap_prefix (w : Nat) {h h' : Nat} (black : Nat → Nat → Bool) (hh : h ≤ h') :
    packedBitmap w h black <+: packedBitmap w h' black := by
  induction h', hh using Nat.le_induction with
  | base => exact List.prefix_rfl
  | succ n _ ih =>
    rw [packedBitmap_succ]
    exact ih.trans (List.prefix_append ..)

/-- The bytes emitted so far are an initial part of the bitmap. -/
theorem emitted_prefix {w h x y : Nat} (black : Nat → Nat → Bool) (hx : x < w) (hy : y < h) :
    emitted w black y x <+: packedBitmap w h black := by
  refine List.IsPrefix.trans ?_ (packedBitmap_prefix w black (Nat.succ_le_of_lt hy))
  rw [packedBitmap_succ, emitted, List.prefix_append_right_inj]
  obtain ⟨k, hk⟩ : ∃ k, (w + 7) / 8 = x / 8 + k := ⟨(w + 7) / 8 - x / 8, by omega⟩
  rw [hk, List.range_add, List.map_append]
  exact List.prefix_append ..

/-- What the machine and the reference have in common after the samples `l` were pushed and the bytes `sent` delivered
in a frame started at `s`; `full` holds the pixels of the whole frame. -/
structure Sim (s : State) (full : List (Bool × Int)) (l : List Byte) (sent : List Byte) (u : State) : Prop where
  inv : u.Inv
  lw : u.lw = s.widthW
  lh : u.lh = s.heightH
  lt : u.lt = s.thresholdT
  ld : u.ld = s.ctrlDither
  pixels : classify s.widthW.toNat s.thresholdT.toNat s.ctrlDither l <+: full
  phase : u.seq = .run ∨ u.seq = .drain ∨ u.seq = .done
  count : u.seq = .run → l.length = u.y.toNat * s.widthW.toNat + u.x.toNat
  countAll : u.seq ≠ .run → l.length = s.widthW.toNat * s.heightH.toNat
  cur : u.seq = .run → ∀ i, i < s.widthW.toNat → (lineGet u.cur i).toInt =
    pulled s.widthW.toNat (classify s.widthW.toNat s.thresholdT.toNat s.ctrlDither l) u.y.toNat i
  nxt : u.seq = .run → ∀ i, i < s.widthW.toNat → (lineGet u.nxt i).toInt =
    if u.y.toNat + 1 < s.heightH.toNat then
      pulledBelow s.widthW.toNat (classify s.widthW.toNat s.thresholdT.toNat s.ctrlDither l) u.y.toNat i
    else 0
  sr : u.seq = .run → ∀ b, b < 8 → u.sr.getLsbD (7 - b) =
    (decide (b < u.x.toNat % 8) && blackAt s.widthW.toNat full (8 * (u.x.toNat / 8) + b) u.y.toNat)
  out : u.seq = .run → sent ++ u.outFifo = headerBytes s.prefixWord s.widthW.toNat s.heightH.toNat ++
    emitted s.widthW.toNat (blackAt s.widthW.toNat full) u.y.toNat u.x.toNat
  outAll : u.seq ≠ .run → sent ++ u.outFifo = headerBytes s.prefixWord s.widthW.toNat s.heightH.toNat ++
    packedBitmap s.widthW.toNat s.heightH.toNat (blackAt s.widthW.toNat full)

/-- START establishes the relation (R91, R116). -/
theorem sim_start {s : State} (h : s.startAccepted = true) (full : List (Bool × Int)) :
    Sim s full [] [] (s.startFrame.answer none) := by
  refine ⟨inv_answer (inv_startFrame h) _, rfl, rfl, rfl, rfl, ?_, .inl rfl, ?_, ?_, ?_, ?_, ?_, ?_, ?_⟩
  · simp [classify]
  · simp
  · simp
  · intro _ i hi
    simp [pulled, errAt, classify]
  · intro _ i hi
    simp [pulledBelow, errAt, classify]
  · simp
  · simp [emitted, packedBitmap]
  · simp

/-- A transaction of the register port that leaves the frame as it is keeps the relation. -/
theorem Sim.congr {s u v : State} {full : List (Bool × Int)} {l sent : List Byte} (h : Sim s full l sent u)
    (hi : v.Inv) (hf : (v.lw, v.lh, v.lt, v.ld, v.seq, v.x, v.y, v.sr, v.cur, v.nxt, v.outFifo) =
      (u.lw, u.lh, u.lt, u.ld, u.seq, u.x, u.y, u.sr, u.cur, u.nxt, u.outFifo)) : Sim s full l sent v := by
  simp only [Prod.mk.injEq] at hf
  obtain ⟨h1, h2, h3, h4, h5, h6, h7, h8, h9, h10, h11⟩ := hf
  constructor <;> first | exact hi | (rw [h1]; exact h.lw) | (rw [h2]; exact h.lh) | (rw [h3]; exact h.lt) |
    (rw [h4]; exact h.ld) | exact h.pixels | (rw [h5]; exact h.phase) | (rw [h5, h6, h7]; exact h.count) |
    (rw [h5]; exact h.countAll) | (rw [h5, h9, h7]; exact h.cur) | (rw [h5, h10, h7]; exact h.nxt) |
    (rw [h5, h8, h6, h7]; exact h.sr) | (rw [h5, h11, h6, h7]; exact h.out) | (rw [h5, h11]; exact h.outAll)

/-- The corrected value and class of a pushed pixel are those of the reference (R98 to R101). -/
theorem Sim.nextPixel_eq {s u : State} {full : List (Bool × Int)} {l sent : List Byte} (h : Sim s full l sent u)
    (hr : u.seq = .run) (smp : Byte) :
    nextPixel s.widthW.toNat s.thresholdT.toNat s.ctrlDither
        (classify s.widthW.toNat s.thresholdT.toNat s.ctrlDither l) smp =
      (u.black smp, u.pushError smp) := by
  have hx : u.x.toNat < s.widthW.toNat := h.lw ▸ (h.inv.position hr).1
  have hc := h.cur hr u.x.toNat hx
  have hk := (length_classify s.widthW.toNat s.thresholdT.toNat s.ctrlDither l).trans (h.count hr)
  rw [Machine.nextPixel_eq _ _ smp hx hk, ← hc, ← h.lt, ← h.ld]
  unfold State.pushError State.black State.corrected sampleValue
  cases hd : u.ld with
  | false => simp [(h.inv.thresholdBuffers hr hd).1]
  | true => simp

theorem getD_of_prefix {α : Type} {l m : List α} (h : l <+: m) (d : α) {k : Nat} (hk : k < l.length) :
    m.getD k d = l.getD k d := by
  obtain ⟨t, rfl⟩ := h
  rw [List.getD_append _ _ _ _ hk]

/-- A taken pixel push keeps the relation, with the sample added (R96, R106, R110, R111). -/
theorem Sim.push {s u : State} {full : List (Bool × Int)} {l sent : List Byte} (h : Sim s full l sent u)
    (hr : u.inReady = true) (smp : Byte)
    (hfull : classify s.widthW.toNat s.thresholdT.toNat s.ctrlDither (l ++ [smp]) <+: full) :
    Sim s full (l ++ [smp]) sent ((u.acceptSample smp).answer none) := by
  obtain ⟨hs, -⟩ := inReady_iff.1 hr
  obtain ⟨hx, hy⟩ := h.inv.position hs
  have hxl := u.lw.isLt
  have hyl := u.lh.isLt
  have hx1 : (BitVec.ofNat 16 (u.x.toNat + 1)).toNat = u.x.toNat + 1 := by simp; omega
  have hy1 : (BitVec.ofNat 16 (u.y.toNat + 1)).toNat = u.y.toNat + 1 := by simp; omega
  have hlw : u.lw.toNat = s.widthW.toNat := congrArg _ h.lw
  have hlh : u.lh.toNat = s.heightH.toNat := congrArg _ h.lh
  rw [hlw] at hx
  rw [hlh] at hy
  have hk := h.count hs
  have hkc := (length_classify s.widthW.toNat s.thresholdT.toNat s.ctrlDither l).trans hk
  have hnp := h.nextPixel_eq hs smp
  have hcl := classify_append s.widthW.toNat s.thresholdT.toNat s.ctrlDither l smp
  rw [hnp] at hcl
  have hcur : ∀ i, i < s.widthW.toNat → (lineGet (u.diffuse smp).cur i).toInt =
      pulled s.widthW.toNat (classify s.widthW.toNat s.thresholdT.toNat s.ctrlDither (l ++ [smp])) u.y.toNat i := by
    intro i hi
    rw [hcl, pulled_append _ hkc hi, diffuse_cur_toInt h.inv hs, h.cur hs i hi, hlw]
  have hnxt : ∀ i, i < s.widthW.toNat → (lineGet (u.diffuse smp).nxt i).toInt =
      if u.y.toNat + 1 < s.heightH.toNat then
        pulledBelow s.widthW.toNat (classify s.widthW.toNat s.thresholdT.toNat s.ctrlDither (l ++ [smp])) u.y.toNat i
      else 0 := by
    intro i hi
    rw [hcl, pulledBelow_append _ hx hkc hi, diffuse_nxt_toInt h.inv hs, h.nxt hs i hi, hlw, hlh]
    split <;> ring
  have hblack : u.black smp = blackAt s.widthW.toNat full u.x.toNat u.y.toNat := by
    rw [blackAt, getD_of_prefix hfull _ (by rw [hcl]; simp [hkc]), hcl, ← hkc]
    simp
  have hput : ∀ b, b < 8 → (putBit u.sr (7 - u.x.toNat % 8) (u.black smp)).getLsbD (7 - b) =
      (decide (b < u.x.toNat % 8 + 1) && blackAt s.widthW.toNat full (8 * (u.x.toNat / 8) + b) u.y.toNat) := by
    intro b hb
    rw [getLsbD_putBit _ (by omega), h.sr hs b hb]
    by_cases hbx : b = u.x.toNat % 8
    · have e : 8 * (u.x.toNat / 8) + b = u.x.toNat := by omega
      rw [if_pos (by omega), hblack, e, decide_eq_true (by omega), Bool.true_and]
    · rw [if_neg (by omega)]
      congr 2
      simp only [eq_iff_iff]
      omega
  have hbyte : u.ByteEnd → putBit u.sr (7 - u.x.toNat % 8) (u.black smp) =
      packedByte s.widthW.toNat (blackAt s.widthW.toNat full) u.y.toNat (u.x.toNat / 8) := by
    intro he
    apply eq_packedByte
    intro b hb
    rw [hput b hb]
    congr 2
    simp only [eq_iff_iff]
    rcases he with he | he
    · omega
    · have : u.x.toNat + 1 = s.widthW.toNat := hlw ▸ he
      omega
  have hsent : sent ++ (u.acceptSample smp).outFifo =
      (headerBytes s.prefixWord s.widthW.toNat s.heightH.toNat ++
        packedBitmap s.widthW.toNat u.y.toNat (blackAt s.widthW.toNat full)) ++
      (List.range (u.x.toNat / 8 + if u.ByteEnd then 1 else 0)).map fun j =>
        packedByte s.widthW.toNat (blackAt s.widthW.toNat full) u.y.toNat j := by
    have ho := h.out hs
    rw [acceptSample_outFifo, ← List.append_assoc, ho, emitted]
    split
    · rename_i he
      rw [hbyte he, List.range_succ]
      simp
    · simp
  have hrow : u.RowEnd → sent ++ (u.acceptSample smp).outFifo =
      headerBytes s.prefixWord s.widthW.toNat s.heightH.toNat ++
        packedBitmap s.widthW.toNat (u.y.toNat + 1) (blackAt s.widthW.toNat full) := by
    intro hc
    have hc' : u.x.toNat + 1 = s.widthW.toNat := hlw ▸ hc
    rw [hsent, if_pos (Or.inr hc), packedBitmap_succ, List.append_assoc]
    congr 4
    omega
  have hend : u.RowEnd → (l ++ [smp]).length = (u.y.toNat + 1) * s.widthW.toNat := by
    intro hc
    have hc' : u.x.toNat + 1 = s.widthW.toNat := hlw ▸ hc
    rw [List.length_append, hk, List.length_singleton, Nat.succ_mul]
    omega
  have hseq := acceptSample_seq u smp
  rw [hs, hlh] at hseq
  have hrun : (u.acceptSample smp).seq = .run → ¬ (u.RowEnd ∧ u.y.toNat + 1 = s.heightH.toNat) := by
    intro hq hc
    rw [hseq, if_pos hc] at hq
    cases hq
  have hdrain : (u.acceptSample smp).seq ≠ .run → u.RowEnd ∧ u.y.toNat + 1 = s.heightH.toNat := by
    intro hq
    by_contra hc
    exact hq (hseq.trans (if_neg hc))
  refine ⟨inv_answer (inv_acceptSample h.inv hr smp) _, ?_, ?_, ?_, ?_, hfull, ?_, ?_, ?_, ?_, ?_, ?_, ?_, ?_⟩
  · simpa using h.lw
  · simpa using h.lh
  · simpa using h.lt
  · simpa using h.ld
  · rw [State.answer_seq, hseq]
    split <;> simp
  · intro hq
    rw [State.answer_y, State.answer_x, acceptSample_x, acceptSample_y]
    split
    · rename_i hc
      rw [hend hc, hy1]
      simp
    · rw [hx1, List.length_append, hk, List.length_singleton]
      omega
  · intro hq
    obtain ⟨hc, hc'⟩ := hdrain hq
    rw [hend hc, hc', Nat.mul_comm]
  · intro hq i hi
    rw [State.answer_cur, State.answer_y, acceptSample_cur, acceptSample_y]
    split
    · rename_i hc
      have : u.y.toNat + 1 ≠ s.heightH.toNat := fun h' => hrun hq ⟨hc, h'⟩
      rw [hnxt i hi, hy1, if_pos (by omega), pulled_succ]
      rw [length_classify]
      exact hend hc
    · exact hcur i hi
  · intro hq i hi
    rw [State.answer_nxt, State.answer_y, acceptSample_nxt, acceptSample_y]
    split
    · rename_i hc
      rw [hy1, pulledBelow_unvisited]
      · simp
      · rw [length_classify]
        exact hend hc
    · exact hnxt i hi
  · intro hq b hb
    rw [State.answer_sr, State.answer_y, State.answer_x, acceptSample_sr, acceptSample_x, acceptSample_y]
    by_cases hc : u.RowEnd
    · rw [if_pos (Or.inr hc), if_pos hc]
      simp
    · rw [if_neg hc, if_neg hc, hx1]
      split
      · rename_i he
        rcases he with he | he
        · rw [decide_eq_false (by omega)]
          simp
        · exact absurd he hc
      · rename_i he
        have he' : ¬ u.x.toNat % 8 = 7 := fun h' => he (Or.inl h')
        rw [hput b hb, show (u.x.toNat + 1) % 8 = u.x.toNat % 8 + 1 by omega,
          show (u.x.toNat + 1) / 8 = u.x.toNat / 8 by omega]
  · intro hq
    rw [State.answer_outFifo, State.answer_y, State.answer_x, acceptSample_x, acceptSample_y]
    split
    · rename_i hc
      rw [hrow hc, hy1, emitted]
      simp
    · rename_i hc
      rw [hsent, hx1, emitted, List.append_assoc]
      congr 4
      by_cases he : u.x.toNat % 8 = 7
      · rw [if_pos (Or.inl he)]
        omega
      · rw [if_neg (fun h' => h'.elim he hc)]
        omega
  · intro hq
    obtain ⟨hc, hc'⟩ := hdrain hq
    rw [State.answer_outFifo, hrow hc, hc']

/-- A taken pop keeps the relation, with the byte delivered (R117). -/
theorem Sim.pop {s u : State} {full : List (Bool × Int)} {l sent : List Byte} (h : Sim s full l sent u) {b : Byte}
    {rest : List Byte} (hf : u.outFifo = b :: rest) (r : Option Word) :
    Sim s full l (sent ++ [b]) ((u.popTo rest).answer r) := by
  have hsent : (sent ++ [b]) ++ rest = sent ++ u.outFifo := by rw [hf]; simp
  have hrun : (u.seq.afterPop rest) = .run ↔ u.seq = .run := by
    unfold SeqState.afterPop
    split
    · rename_i hc
      rw [hc.1]
      simp
    · rfl
  refine ⟨inv_answer (inv_popTo h.inv hf) _, h.lw, h.lh, h.lt, h.ld, h.pixels, ?_, fun hs => h.count (hrun.1 hs),
    fun hs => h.countAll (mt hrun.2 hs), fun hs => h.cur (hrun.1 hs), fun hs => h.nxt (hrun.1 hs),
    fun hs => h.sr (hrun.1 hs), fun hs => hsent.trans (h.out (hrun.1 hs)),
    fun hs => hsent.trans (h.outAll (mt hrun.2 hs))⟩
  rw [State.answer_seq, State.popTo_seq, SeqState.afterPop]
  split
  · simp
  · exact h.phase

/-- A taken transaction of an active frame other than ABORT keeps the relation. -/
theorem Sim.exec {s u t : State} {full : List (Bool × Int)} {l sent : List Byte} (h : Sim s full l sent u)
    (ha : u.frameActive = true) {i : Instr} (he : Machine.exec i u = .next t) (hab : t.seq ≠ .aborted)
    (hfull : classify s.widthW.toNat s.thresholdT.toNat s.ctrlDither (l ++ pushedSamples [i]) <+: full) :
    Sim s full (l ++ pushedSamples [i]) (sent ++ deliveredBy i t) t := by
  have none_pushed : ∀ {i}, Instr.OnRegisterPort i → l ++ pushedSamples [i] = l := by
    intro i ⟨_, h2⟩
    cases i <;> simp_all [pushedSamples]
  have none_delivered : ∀ {i} {t : State}, Instr.OnRegisterPort i → sent ++ deliveredBy i t = sent := by
    intro i t ⟨h1, _⟩
    cases i <;> simp_all [deliveredBy]
  cases exec_next_cases he with
  | quiet _ hi r =>
    rw [none_pushed hi, none_delivered hi]
    exact h.congr (inv_answer h.inv _) rfl
  | raised _ hi e r =>
    rw [none_pushed hi, none_delivered hi]
    exact h.congr (inv_answer (inv_raise h.inv e) _) rfl
  | written _ hi =>
    rw [none_pushed hi, none_delivered hi]
    exact h.congr (inv_answer (inv_withRegs h.inv ..) _) rfl
  | started hst =>
    rw [State.startAccepted, ha] at hst
    cases hst
  | aborted => exact absurd rfl hab
  | cleared =>
    have hi : Instr.OnRegisterPort .cmdClear := ⟨by simp, by simp⟩
    rw [none_pushed hi, none_delivered hi]
    refine h.congr (inv_answer (inv_clear h.inv) _) ?_
    rcases frameActive_iff.1 ha with hq | hq <;> simp [hq, SeqState.afterClear]
  | pushed smp hr =>
    have := h.push hr smp hfull
    simpa [pushedSamples, deliveredBy] using this
  | popped b rest hf =>
    have := h.pop hf (some (b.setWidth 32))
    simpa [pushedSamples, deliveredBy] using this

theorem pushedSamples_cons (i : Instr) (is : List Instr) :
    pushedSamples (i :: is) = pushedSamples [i] ++ pushedSamples is := by
  simp only [pushedSamples]
  rw [← List.filterMap_append]
  rfl

/-- A run of an active frame that does not end in ABORTED keeps the relation. -/
theorem Sim.activeRun {s : State} {full : List (Bool × Int)} {is : List Instr} : ∀ {u v : State} {l sent bs : List Byte},
    Sim s full l sent u → Machine.activeRun is u = some (bs, v) → v.seq ≠ .aborted →
    classify s.widthW.toNat s.thresholdT.toNat s.ctrlDither (l ++ pushedSamples is) <+: full →
    Sim s full (l ++ pushedSamples is) (sent ++ bs) v := by
  induction is with
  | nil =>
    intro u v l sent bs h hr hv hfull
    simp only [Machine.activeRun, Option.some.injEq, Prod.mk.injEq] at hr
    obtain ⟨rfl, rfl⟩ := hr
    simpa [pushedSamples] using h
  | cons i is ih =>
    intro u v l sent bs h hr hv hfull
    rw [Machine.activeRun] at hr
    split at hr
    · rename_i ha
      split at hr
      · rename_i t he
        split at hr
        · rename_i bs' v' hr'
          simp only [Option.some.injEq, Prod.mk.injEq] at hr
          obtain ⟨rfl, rfl⟩ := hr
          rw [pushedSamples_cons, ← List.append_assoc] at hfull ⊢
          rw [← List.append_assoc]
          refine ih (h.exec ha he ?_ ?_) hr' hv hfull
          · intro hab
            cases is with
            | nil =>
              simp only [Machine.activeRun, Option.some.injEq, Prod.mk.injEq] at hr'
              exact hv (hr'.2 ▸ hab)
            | cons j is =>
              rw [Machine.activeRun, if_neg (by simp [State.frameActive, hab])] at hr'
              cases hr'
          · exact (classify_prefix ..).trans hfull
        · cases hr
      · cases hr
      · cases hr
    · cases hr

/-- A run followed by another is one run. -/
theorem activeRun_append {is js : List Instr} : ∀ {s t : State} {bs : List Byte}, activeRun is s = some (bs, t) →
    activeRun (is ++ js) s = (activeRun js t).map fun r => (bs ++ r.1, r.2) := by
  induction is with
  | nil =>
    intro s t bs h
    simp only [activeRun, Option.some.injEq, Prod.mk.injEq] at h
    obtain ⟨rfl, rfl⟩ := h
    rw [List.nil_append]
    cases activeRun js s <;> simp
  | cons i is ih =>
    intro s t bs h
    rw [List.cons_append]
    rw [activeRun] at h ⊢
    split at h
    · rename_i ha
      rw [if_pos ha]
      split at h
      · split at h
        · rename_i u hr
          simp only [Option.some.injEq, Prod.mk.injEq] at h
          obtain ⟨rfl, rfl⟩ := h
          simp only [ih hr]
          cases activeRun js u <;> simp
        · cases h
      · cases h
      · cases h
    · cases h

/-- A run of one transaction. -/
theorem activeRun_singleton {i : Instr} {s t : State} (ha : s.frameActive = true) (h : exec i s = .next t) :
    activeRun [i] s = some (deliveredBy i t, t) := by
  simp [activeRun, ha, h]

end Sys2Proof.Machine
end

