-- ==== Sys2Proof/Laws/PerInstr.lean ====
section
/-! SUPPORT. The statements made per constructor of `Instr`. -/

namespace Sys2Proof.Laws

/-- Decoding the TD of a well-formed transaction gives it back (30_encoding.md R59). -/
def RoundTrip.Statement (i : Instr) : Prop := i.Wf → decode (encode i) = .ok i

theorem RoundTrip.rdCtrl : RoundTrip.Statement .rdCtrl := by
  intro _
  simp [encode, decodeRead]

theorem RoundTrip.rdWidth : RoundTrip.Statement .rdWidth := by
  intro _
  simp [encode, decodeRead]

theorem RoundTrip.rdHeight : RoundTrip.Statement .rdHeight := by
  intro _
  simp [encode, decodeRead]

theorem RoundTrip.rdThreshold : RoundTrip.Statement .rdThreshold := by
  intro _
  simp [encode, decodeRead]

theorem RoundTrip.rdPrefix : RoundTrip.Statement .rdPrefix := by
  intro _
  simp [encode, decodeRead]

theorem RoundTrip.rdIrqEn : RoundTrip.Statement .rdIrqEn := by
  intro _
  simp [encode, decodeRead]

theorem RoundTrip.rdCmd : RoundTrip.Statement .rdCmd := by
  intro _
  simp [encode, decodeRead]

theorem RoundTrip.rdStatus : RoundTrip.Statement .rdStatus := by
  intro _
  simp [encode, decodeRead]

theorem RoundTrip.rdErr : RoundTrip.Statement .rdErr := by
  intro _
  simp [encode, decodeRead]

theorem RoundTrip.rdPos : RoundTrip.Statement .rdPos := by
  intro _
  simp [encode, decodeRead]

theorem RoundTrip.rdCaps : RoundTrip.Statement .rdCaps := by
  intro _
  simp [encode, decodeRead]

theorem RoundTrip.rdUnmapped (o : Byte) : RoundTrip.Statement (.rdUnmapped o) := by
  intro h
  simp only [Instr.Wf, mapped_iff, not_or] at h
  simp [encode, decodeRead, h]

theorem RoundTrip.wrCtrl (v : Word) : RoundTrip.Statement (.wrCtrl v) := by
  intro _
  simp [encode, decodeWrite]

theorem RoundTrip.wrWidth (v : Word) : RoundTrip.Statement (.wrWidth v) := by
  intro _
  simp [encode, decodeWrite]

theorem RoundTrip.wrHeight (v : Word) : RoundTrip.Statement (.wrHeight v) := by
  intro _
  simp [encode, decodeWrite]

theorem RoundTrip.wrThreshold (v : Word) : RoundTrip.Statement (.wrThreshold v) := by
  intro _
  simp [encode, decodeWrite]

theorem RoundTrip.wrPrefix (v : Word) : RoundTrip.Statement (.wrPrefix v) := by
  intro _
  simp [encode, decodeWrite]

theorem RoundTrip.wrIrqEn (v : Word) : RoundTrip.Statement (.wrIrqEn v) := by
  intro _
  simp [encode, decodeWrite]

theorem RoundTrip.wrStatus (v : Word) : RoundTrip.Statement (.wrStatus v) := by
  intro _
  simp [encode, decodeWrite]

theorem RoundTrip.wrErr (v : Word) : RoundTrip.Statement (.wrErr v) := by
  intro _
  simp [encode, decodeWrite]

theorem RoundTrip.wrPos (v : Word) : RoundTrip.Statement (.wrPos v) := by
  intro _
  simp [encode, decodeWrite]

theorem RoundTrip.wrCaps (v : Word) : RoundTrip.Statement (.wrCaps v) := by
  intro _
  simp [encode, decodeWrite]

theorem RoundTrip.wrUnmapped (o : Byte) (v : Word) : RoundTrip.Statement (.wrUnmapped o v) := by
  intro h
  simp only [Instr.Wf, mapped_iff, not_or] at h
  simp [encode, decodeWrite, h]

theorem RoundTrip.cmdNop : RoundTrip.Statement .cmdNop := by
  intro _
  simp [encode, decodeWrite, decodeCommand]

theorem RoundTrip.cmdStart : RoundTrip.Statement .cmdStart := by
  intro _
  simp [encode, decodeWrite, decodeCommand]

theorem RoundTrip.cmdAbort : RoundTrip.Statement .cmdAbort := by
  intro _
  simp [encode, decodeWrite, decodeCommand]

theorem RoundTrip.cmdClear : RoundTrip.Statement .cmdClear := by
  intro _
  simp [encode, decodeWrite, decodeCommand]

theorem RoundTrip.cmdReserved (v : Word) : RoundTrip.Statement (.cmdReserved v) := by
  intro h
  simp only [Instr.Wf, commandCode_iff, not_or] at h
  simp [encode, decodeWrite, decodeCommand, h]

theorem RoundTrip.pixPush (s : Byte) : RoundTrip.Statement (.pixPush s) := by
  intro _
  have h : (s.setWidth 32).extractLsb' 8 24 = 0#24 := by
    apply BitVec.eq_of_toNat_eq
    have := s.isLt
    simp [BitVec.extractLsb'_toNat, Nat.shiftRight_eq_div_pow]
    omega
  simp [encode, decode, h]

theorem RoundTrip.outPop : RoundTrip.Statement .outPop := by
  intro _
  simp [encode, decode]

end Sys2Proof.Laws
end

