-- ==== Sys2Proof/Tests/Slice0.lean ====
section
/-! SUPPORT. Tests of the model against words, values and vectors the spec writes out (95_test_vectors.md), and a witness
for the hypotheses of each obligation. -/

namespace Sys2Proof.Tests

open Sys2Proof.Machine Sys2Proof.Claims

/-! ### Helpers -/

/-- The parameters 95_test_vectors.md assumes. -/
def p16 : Params := ⟨65535, 16, by decide, by decide, by decide, by decide⟩

/-- The smallest parameters. -/
def p8 : Params := ⟨384, 8, by decide, by decide, by decide, by decide⟩

/-- The state after reset with the parameters 95_test_vectors.md assumes. -/
def s0 : State := State.resetWith p16

/-- The state that an outcome leaves. -/
def after (r : Result) : Option State :=
  match r with
  | .next t => some t
  | .fault _ => none
  | .refused _ => none

/-- What a transaction returns. -/
def returned (i : Instr) (s : State) : Option Word := (after (exec i s)).bind (·.ret)

/-- The ERR register after a transaction. -/
def errAfter (i : Instr) (s : State) : Option (BitVec 5) := (after (exec i s)).map (·.err)

/-- A frame of w by h with threshold t and policy d, right after its START. -/
def started (w h : Half) (t : Byte) (d : Bool) : State :=
  ({ s0 with widthW := w, heightH := h, thresholdT := t, ctrlDither := d }).startFrame

/-- The corrected values and classes of a row of samples, and the state left. -/
def trace : List Byte → State → List (Int × Bool)
  | [], _ => []
  | smp :: l, s => (s.corrected smp, s.black smp) :: trace l ((s.acceptSample smp).popTo [])

/-! ### WellFormed: the check refuses an ill-formed term of each kind (R55, R56) -/

theorem test_wf_refuses_mapped_read : ¬ (Instr.rdUnmapped 0x04#8).Wf := by decide
theorem test_wf_refuses_mapped_write : ¬ (Instr.wrUnmapped 0x18#8 1#32).Wf := by decide
theorem test_wf_refuses_command_code : ¬ (Instr.cmdReserved 3#32).Wf := by decide

/-! ### Decoding: the words of 30_encoding.md R59 and 95_test_vectors.md, one for every constructor -/

theorem test_decode_reads :
    [0x000000000000#48, 0x000400000000#48, 0x000800000000#48, 0x000C00000000#48, 0x001000000000#48, 0x001400000000#48,
      0x001800000000#48, 0x001C00000000#48, 0x002000000000#48, 0x002400000000#48, 0x002800000000#48,
      0x00FC00000000#48].map decode =
    [.ok .rdCtrl, .ok .rdWidth, .ok .rdHeight, .ok .rdThreshold, .ok .rdPrefix, .ok .rdIrqEn, .ok .rdCmd,
      .ok .rdStatus, .ok .rdErr, .ok .rdPos, .ok .rdCaps, .ok (.rdUnmapped 0xFC#8)] := by decide

theorem test_decode_writes :
    [0x200080000001#48, 0x20040000FFFF#48, 0x200800001234#48, 0x200C00000100#48, 0x2010FFFFFFFF#48, 0x201400000003#48,
      0x201C00000000#48, 0x20200000001F#48, 0x202400000005#48, 0x202800000000#48, 0x204000000001#48].map decode =
    [.ok (.wrCtrl 0x80000001#32), .ok (.wrWidth 0xFFFF#32), .ok (.wrHeight 0x1234#32), .ok (.wrThreshold 256#32),
      .ok (.wrPrefix 0xFFFFFFFF#32), .ok (.wrIrqEn 3#32), .ok (.wrStatus 0#32), .ok (.wrErr 0x1F#32),
      .ok (.wrPos 5#32), .ok (.wrCaps 0#32), .ok (.wrUnmapped 0x40#8 1#32)] := by decide

theorem test_decode_commands_and_streams :
    [0x201800000000#48, 0x201800000001#48, 0x201800000002#48, 0x201800000003#48, 0x201800000004#48,
      0x600000000080#48, 0x800000000000#48].map decode =
    [.ok .cmdNop, .ok .cmdStart, .ok .cmdAbort, .ok .cmdClear, .ok (.cmdReserved 4#32), .ok (.pixPush 128#8),
      .ok .outPop] := by decide

/-- The reserved TDs of R54, one of each kind. -/
theorem test_decode_refuses_reserved :
    [0xC00000000000#48, 0x010000000000#48, 0x001C00000001#48, 0x400000000000#48, 0x600100000000#48, 0x600000000100#48,
      0xA00000000000#48, 0x800100000000#48, 0x800000000001#48].map decode =
    [.error .portReserved, .error .rsvNonzero, .error .readWithData, .error .pushDirRead, .error .pushOffset,
      .error .pushWideData, .error .popDirWrite, .error .popOffset, .error .popWithData] := by decide

/-! ### Register reads (95_test_vectors.md 2.1) -/

theorem test_reads_after_reset :
    [Instr.rdCtrl, .rdWidth, .rdHeight, .rdThreshold, .rdPrefix, .rdIrqEn, .rdCmd, .rdStatus, .rdErr, .rdPos,
      .rdCaps].map (returned · s0) =
    [some 1#32, some 0x180#32, some 0#32, some 0x80#32, some 0x0030761D#32, some 0#32, some 0#32, some 0#32, some 0#32,
      some 0#32, some 0x0010FFFF#32] := by decide

/-- RR-11. -/
theorem test_caps_smallest : returned .rdCaps (State.resetWith p8) = some 0x00080180#32 := by decide

/-- RR-13. -/
theorem test_read_unaligned :
    (after (exec (.rdUnmapped 0x05#8) s0)).map (fun t => (t.ret, t.err)) = some (some 0#32, 0x4#5) := by decide

/-- P1: just after START. -/
theorem test_status_after_start : returned .rdStatus (started 16#16 2#16 128#8 false) = some 0x00000819#32 := by decide

/-- P3: ERR_EN and a recorded error raise IRQ. -/
theorem test_status_irq :
    returned .rdStatus { started 8#16 1#16 128#8 false with errEn := true, err := 0x10#5 } = some 0x00000839#32 := by
  decide

/-! ### Register writes (2.2) -/

theorem test_write_ctrl : (after (exec (.wrCtrl 0x80000001#32) s0)).map (fun t => (t.ctrlDither, t.err)) =
    some (true, 0x2#5) := by decide
theorem test_write_width : (after (exec (.wrWidth 0xFFFF#32) s0)).map (fun t => (t.widthW, t.err)) =
    some (0xFFFF#16, 0#5) := by decide
theorem test_write_width_rejected : (after (exec (.wrWidth 0x10000#32) s0)).map (fun t => (t.widthW, t.err)) =
    some (0x180#16, 0x2#5) := by decide
theorem test_write_height : (after (exec (.wrHeight 0x1234#32) s0)).map (·.heightH) = some 0x1234#16 := by decide
theorem test_write_threshold_rejected :
    (after (exec (.wrThreshold 256#32) s0)).map (fun t => (t.thresholdT, t.err)) = some (0x80#8, 0x2#5) := by decide
theorem test_write_prefix : (after (exec (.wrPrefix 0xFFFFFFFF#32) s0)).map (fun t => (t.prefixWord, t.err)) =
    some (0xFFFFFFFF#32, 0#5) := by decide
theorem test_write_irqEn : (after (exec (.wrIrqEn 2#32) { s0 with err := 0x4#5 })).map
    (fun t => (t.doneEn, t.errEn, t.irq)) = some (false, true, true) := by decide
theorem test_write_irqEn_rejected : (after (exec (.wrIrqEn 4#32) s0)).map (fun t => (t.doneEn, t.errEn, t.err)) =
    some (false, false, 0x2#5) := by decide
/-- RW-14 to RW-17. -/
theorem test_write_read_only : [Instr.wrStatus 0#32, .wrErr 0#32, .wrPos 5#32, .wrCaps 0#32].map
    (errAfter · { s0 with err := 0x8#5 }) = [some 0xA#5, some 0xA#5, some 0xA#5, some 0xA#5] := by decide
/-- RW-19: no START is issued. -/
theorem test_write_unaligned : (after (exec (.wrUnmapped 0x19#8 1#32) s0)).map (fun t => (t.err, t.seq)) =
    some (0x4#5, .idle) := by decide

/-! ### Commands (2.3) -/

theorem test_nop : after (exec .cmdNop s0) = some s0 := by decide
/-- C-5. -/
theorem test_start : (after (exec .cmdStart { State.resetWith p8 with heightH := 1#16 })).map
    (fun t => (t.seq, t.outFifo)) =
    some (.run, [0x1D#8, 0x76#8, 0x30#8, 0x00#8, 0x30#8, 0x00#8, 0x01#8, 0x00#8]) := by decide
/-- C-4. -/
theorem test_start_too_wide :
    (after (exec .cmdStart { State.resetWith p8 with heightH := 1#16, widthW := 385#16 })).map
    (fun t => (t.seq, t.err)) = some (.idle, 0x8#5) := by decide
/-- C-10. -/
theorem test_abort : (after (exec .cmdAbort { started 8#16 1#16 128#8 false with x := 3#16, sr := 0xE0#8 })).map
    (fun t => (t.seq, t.outFifo, t.sr, t.posWord)) = some (.aborted, [], 0#8, 3#32) := by decide
/-- C-13. -/
theorem test_clear : (after (exec .cmdClear { s0 with seq := .done, err := 0x2#5, y := 2#16 })).map
    (fun t => (t.seq, t.err, t.y)) = some (.idle, 0#5, 2#16) := by decide
/-- C-16: not a START. -/
theorem test_reserved_command : (after (exec (.cmdReserved 0x101#32) s0)).map (fun t => (t.seq, t.err)) =
    some (.idle, 0x1#5) := by decide

/-! ### Shares, quantizer and packer (2.4 to 2.6) -/

/-- The table of 2.5. -/
theorem test_share : [100, -100, 255, -255, 16, 15, -1, -62, 0].map (fun e => [7, 3, 5, 1].map (share e)) =
    [[43, 18, 31, 6], [-43, -18, -31, -6], [111, 47, 79, 15], [-111, -47, -79, -15], [7, 3, 5, 1], [6, 2, 4, 0],
      [0, 0, 0, 0], [-27, -11, -19, -3], [0, 0, 0, 0]] := by decide

/-- T-4: s = LT is white. -/
theorem test_push_threshold :
    ((trace [99#8, 100#8, 101#8, 0#8, 255#8, 100#8, 99#8, 100#8] (started 8#16 1#16 100#8 false)).map (·.2)) =
    [true, false, false, true, false, false, true, false] := by decide

/-- Q-3: all four shares, both edges. -/
theorem test_push_dither : trace [100#8, 150#8, 200#8, 50#8, 128#8, 255#8] (started 3#16 2#16 128#8 true) =
    [(100, true), (193, false), (173, false), (70, true), (130, false), (173, false)] := by decide

/-- Q-3, the reference frame: bitmap 80 80. -/
theorem test_reference_frame :
    frameFor { s0 with widthW := 3#16, heightH := 2#16 } [100#8, 150#8, 200#8, 50#8, 128#8, 255#8] =
    [0x1D#8, 0x76#8, 0x30#8, 0x00#8, 0x01#8, 0x00#8, 0x02#8, 0x00#8, 0x80#8, 0x80#8] := by decide

/-- H-3, H-5 and H-6. -/
theorem test_headers : headerBytes 0x0030761D#32 385 300 =
      [0x1D#8, 0x76#8, 0x30#8, 0x00#8, 0x31#8, 0x00#8, 0x2C#8, 0x01#8] ∧
    headerBytes 0x0330761D#32 9 1 = [0x1D#8, 0x76#8, 0x30#8, 0x03#8, 0x02#8, 0x00#8, 0x01#8, 0x00#8] ∧
    headerBytes 0x44332211#32 8 1 = [0x11#8, 0x22#8, 0x33#8, 0x44#8, 0x01#8, 0x00#8, 0x01#8, 0x00#8] := by decide

/-- K-1, K-2, K-3. -/
theorem test_bytes_per_line : [8, 16, 384, 1, 9, 385, 65535].map bytesPerLine = [1, 2, 48, 1, 2, 49, 8192] := by decide

/-! ### Output port (2.8) -/

/-- O-2. -/
theorem test_pop_last : (after (exec .outPop { s0 with seq := .drain, outFifo := [0xAA#8] })).map
    (fun t => (t.ret, t.seq)) = some (some 0xAA#32, .done) := by decide
/-- O-1: an empty FIFO in RUN does not end the frame. -/
theorem test_pop_in_run : (after (exec .outPop { started 8#16 1#16 128#8 false with outFifo := [0x00#8] })).map
    (fun t => (t.outFifo, t.seq)) = some ([], .run) := by decide

/-! ### Assembler text (R62, R63) -/

theorem test_read_line_write :
    readLine ("wr WIDTH, 0x10000   ; rejected".toList) = some (some (.line (.wr .width 0x10000#32))) := by decide
theorem test_read_line_frame :
    readLine ("frame 16, 2, 128, 0".toList) = some (some (.pseudo (.frame 16#32 2#32 128#32 0#32))) := by decide
theorem test_read_line_sample_too_large : readLine ("push 256".toList) = none := by decide
/-- P1's first lines as TDs. -/
theorem test_setup_expands : (Pseudo.expand (.frame 16#32 2#32 128#32 0#32)).map AsmLine.td =
    [0x200400000010#48, 0x200800000002#48, 0x200C00000080#48, 0x200000000000#48, 0x201800000001#48] := by decide

/-! ### Witnesses: states and operands that meet the hypotheses of each obligation -/

/-- A started frame satisfies the invariant. -/
theorem started_inv {w h : Half} (t : Byte) (d : Bool) (hw : w ≠ 0#16) (hh : h ≠ 0#16) : (started w h t d).Inv :=
  inv_startFrame (startAccepted_iff.2 ⟨⟨by simp [s0, State.resetWith], by simp [s0, State.resetWith]⟩, hh, hw, by
    have := w.isLt
    show w.toNat ≤ 65535
    omega⟩)

theorem witness_DecodeEncodeRoundTrip :
    (Instr.wrUnmapped 0xFF#8 0#32).Wf ∧ (Instr.rdUnmapped 0x2C#8).Wf ∧ (Instr.cmdReserved 4#32).Wf ∧
      (Instr.pixPush 255#8).Wf := by decide

theorem witness_DecodedTransactionEncodesBack : decode 0x6000000000FF#48 = .ok (.pixPush 255#8) := by decide

theorem witness_ReservedTdsRefused :
    ({ s0 with events := [.transaction 0xC00000000000#48] } : State).events = .transaction 0xC00000000000#48 :: [] ∧
      decode 0xC00000000000#48 = .error .portReserved := by decide

theorem witness_DecoderAgreesWithOpcodeTable :
    (⟨"CMD_NOP", 0x201800000000#48, 0xFFFFFFFFFFFF#48, 0⟩ : OpcodeRow) ∈ opcodeRows ∧
      (⟨"CMD_START", 0x201800000001#48, 0xFFFFFFFFFFFF#48, 0⟩ : OpcodeRow) ∈ opcodeRows ∧
      (⟨"CMD_NOP", 0x201800000000#48, 0xFFFFFFFFFFFF#48, 0⟩ : OpcodeRow) ≠
        ⟨"CMD_START", 0x201800000001#48, 0xFFFFFFFFFFFF#48, 0⟩ := by decide

theorem witness_StepRunsDecodedTransaction :
    (s0.withFetchWord 48 0x201800000003).events = .transaction 0x201800000003#48 :: [] ∧
      decode 0x201800000003#48 = .ok .cmdClear := by decide

theorem witness_NothingOfferedNoStep : s0.events = [] := by decide

theorem witness_ResetPulseRestoresState :
    ({ started 1#16 1#16 0#8 true with events := [.reset] } : State).events = .reset :: [] := by decide

/-- A finished 1 by 3 frame. -/
def finished : State := { s0 with seq := .done, lw := 1#16, lh := 3#16, y := 3#16 }

theorem finished_inv : finished.Inv := inv_of_quiet rfl rfl (fun _ => ⟨rfl, rfl⟩) wf_nil wf_nil

theorem witness_CmdErrPosCapsReads : finished.Inv ∧ (finished.seq = .drain ∨ finished.seq = .done) :=
  ⟨finished_inv, .inr rfl⟩

theorem witness_StatusRead : s0.outFifo.length ≤ s0.params.ofifoDepth ∧
    (List.replicate 8 0#8).length ≤ (State.resetWith p8).params.ofifoDepth := by decide

theorem witness_UnmappedAccesses : ¬ ((0x01#8 : Byte).toNat % 4 = 0 ∧ (0x01#8 : Byte).toNat ≤ 0x28) ∧
    ¬ ((0x2C#8 : Byte).toNat % 4 = 0 ∧ (0x2C#8 : Byte).toNat ≤ 0x28) ∧
    ((0x28#8 : Byte).toNat % 4 = 0 ∧ (0x28#8 : Byte).toNat ≤ 0x28) := by decide

/-- One for each clause: a frame active; each bad size; the largest and the smallest good size. -/
theorem witness_StartCommand :
    Active (started 1#16 1#16 0#8 false) ∧ Active { s0 with seq := .drain } ∧
    (¬ Active s0 ∧ BadSize s0) ∧
    (¬ Active s0 ∧ BadSize { s0 with widthW := 0#16, heightH := 1#16 }) ∧
    (¬ Active s0 ∧ BadSize { State.resetWith p8 with widthW := 385#16, heightH := 1#16 }) ∧
    (¬ Active s0 ∧ ¬ BadSize { s0 with widthW := 65535#16, heightH := 65535#16 }) ∧
    (¬ Active s0 ∧ ¬ BadSize { s0 with widthW := 1#16, heightH := 1#16 }) := by decide

theorem witness_AbortCommand :
    Active (started 1#16 1#16 0#8 false) ∧ Active { s0 with seq := .drain } ∧ ¬ Active s0 := by decide

theorem witness_ClearCommand : (finished.seq = .done ∨ finished.seq = .aborted) ∧
    ¬ ((started 1#16 1#16 0#8 false).seq = .done ∨ (started 1#16 1#16 0#8 false).seq = .aborted) := by decide

theorem witness_ReservedCommand : (4#32 : Word) ≠ 0#32 ∧ (4#32 : Word) ≠ 1#32 ∧ (4#32 : Word) ≠ 2#32 ∧
    (4#32 : Word) ≠ 3#32 := by decide

/-- Ready with one place left; not ready with none left, nor outside RUN. -/
theorem witness_PushTakenExactlyWhenReady :
    Ready { started 1#16 1#16 0#8 false with outFifo := List.replicate 15 0#8 } ∧
    ¬ Ready { started 1#16 1#16 0#8 false with outFifo := List.replicate 16 0#8 } ∧ ¬ Ready s0 := by decide

/-- Ready at the end of a byte, at the end of a row, and at neither. -/
theorem witness_PushPacksPixel :
    (let s := { started 9#16 1#16 0#8 false with x := 7#16 }; Ready s ∧ s.x.toNat % 8 = 7) ∧
    (let s := { started 9#16 1#16 0#8 false with x := 8#16 }; Ready s ∧ s.x.toNat + 1 = s.lw.toNat) ∧
    (let s := started 9#16 1#16 0#8 false; Ready s ∧ ¬ (s.x.toNat % 8 = 7 ∨ s.x.toNat + 1 = s.lw.toNat)) := by decide

/-- A row end of the last row, a row end of another row, and no row end, under each policy. -/
theorem witness_PushDiffusesAndAdvances :
    ((started 1#16 1#16 128#8 true).Inv ∧ Ready (started 1#16 1#16 128#8 true)) ∧
    ((started 1#16 2#16 128#8 false).Inv ∧ Ready (started 1#16 2#16 128#8 false)) ∧
    ((started 2#16 2#16 128#8 true).Inv ∧ Ready (started 2#16 2#16 128#8 true)) :=
  ⟨⟨started_inv _ _ (by decide) (by decide), by decide⟩, ⟨started_inv _ _ (by decide) (by decide), by decide⟩,
    started_inv _ _ (by decide) (by decide), by decide⟩

theorem witness_PushFrame : ∃ t, exec (.pixPush 0#8) (started 2#16 2#16 128#8 true) = .next t := ⟨_, rfl⟩

theorem witness_PopDeliversHead :
    ({ s0 with seq := .drain, outFifo := [1#8] } : State).outFifo = 1#8 :: [] ∧
    ∃ rest, (started 1#16 1#16 0#8 true).outFifo = 0x1D#8 :: rest := ⟨rfl, _, rfl⟩

theorem witness_PopWaitsOnEmptyFifo : s0.outFifo = [] := by decide

theorem witness_PushWaitsAfterRefusedStart : ¬ Active s0 ∧ BadSize s0 := by decide

theorem witness_IrqLevel : finished.seq = .done ∧ ¬ BadSize { finished with heightH := 1#16 } := by decide

/-- A transaction for each cause, and one that raises none. -/
theorem witness_ErrorCauses :
    (∃ t, exec (.cmdReserved 4#32) s0 = .next t) ∧ raisesCause (.cmdReserved 4#32) s0 0 ∧
    (∃ t, exec (.wrCtrl 2#32) s0 = .next t) ∧ raisesCause (.wrCtrl 2#32) s0 1 ∧ ¬ raisesCause (.wrCtrl 1#32) s0 1 ∧
    raisesCause (.rdUnmapped 0x2C#8) s0 2 ∧ raisesCause .cmdStart s0 3 ∧
    raisesCause .cmdStart (started 1#16 1#16 0#8 true) 4 ∧ ¬ raisesCause .cmdStart (started 1#16 1#16 0#8 true) 3 :=
  ⟨⟨_, rfl⟩, rfl, ⟨_, rfl⟩, ⟨rfl, by decide⟩, fun h => absurd h.2 (by decide), rfl,
    .inl ⟨rfl, by decide, by decide⟩, .inr ⟨rfl, by decide⟩,
    fun h => h.elim (fun h => absurd h.2.1 (by decide)) fun h => absurd h.1 (by decide)⟩

theorem witness_OneErrorBitPerTransaction : ∃ t, exec .cmdStart s0 = .next t ∧ t.err.getLsbD 3 = true ∧
    s0.err.getLsbD 3 = false := ⟨_, rfl, by decide, by decide⟩

theorem witness_ErrorsArePrecise : ∃ t, exec (.wrPos 5#32) { s0 with err := 0x8#5 } = .next t ∧
    t.err.getLsbD 1 = true ∧ ({ s0 with err := 0x8#5 } : State).err.getLsbD 1 = false := ⟨_, rfl, by decide, by decide⟩

theorem witness_RegisterTransactionsTakenAtOnce :
    Instr.rdErr ≠ .outPop ∧ (∀ smp, Instr.rdErr ≠ .pixPush smp) ∧ ¬ IsCommand .rdErr := by simp [IsCommand]

/-- One for each transition of R27. -/
theorem witness_SequencerTransitions :
    (∃ t, exec .cmdStart { s0 with heightH := 1#16 } = .next t ∧ t.seq ≠ s0.seq) ∧
    (∃ t, exec (.pixPush 0#8) (started 1#16 1#16 0#8 true) = .next t ∧ t.seq ≠ .run) ∧
    (∃ t, exec .outPop { s0 with seq := .drain, outFifo := [1#8] } = .next t ∧ t.seq ≠ .drain) ∧
    (∃ t, exec .cmdAbort { s0 with seq := .drain, outFifo := [1#8] } = .next t ∧ t.seq ≠ .drain) ∧
    (∃ t, exec .cmdClear finished = .next t ∧ t.seq ≠ .done) :=
  ⟨⟨_, rfl, by decide⟩, ⟨_, rfl, by decide⟩, ⟨_, rfl, by decide⟩, ⟨_, rfl, by decide⟩, ⟨_, rfl, by decide⟩⟩

theorem witness_LatchedParametersHold :
    (∃ t, exec (.wrWidth 16#32) (started 9#16 1#16 0#8 true) = .next t) ∧ Instr.wrWidth 16#32 ≠ .cmdStart ∧
    (∃ t, exec .cmdStart (started 9#16 1#16 0#8 true) = .next t) ∧ Active (started 9#16 1#16 0#8 true) ∧
    (∃ t, exec .cmdStart s0 = .next t) ∧ BadSize s0 ∧ ¬ Active s0 :=
  ⟨⟨_, rfl⟩, by decide, ⟨_, rfl⟩, by decide, ⟨_, rfl⟩, by decide, by decide⟩

/-- A write that changes each register. -/
theorem witness_ConfigRegistersHoldUntilWritten :
    (∃ t, exec (.wrCtrl 0#32) s0 = .next t ∧ t.ctrlDither ≠ s0.ctrlDither) ∧
    (∃ t, exec (.wrWidth 0xFFFF#32) s0 = .next t ∧ t.widthW ≠ s0.widthW) ∧
    (∃ t, exec (.wrHeight 1#32) s0 = .next t ∧ t.heightH ≠ s0.heightH) ∧
    (∃ t, exec (.wrThreshold 255#32) s0 = .next t ∧ t.thresholdT ≠ s0.thresholdT) ∧
    (∃ t, exec (.wrPrefix 0#32) s0 = .next t ∧ t.prefixWord ≠ s0.prefixWord) ∧
    (∃ t, exec (.wrIrqEn 3#32) s0 = .next t ∧ t.doneEn ≠ s0.doneEn) :=
  ⟨⟨_, rfl, by decide⟩, ⟨_, rfl, by decide⟩, ⟨_, rfl, by decide⟩, ⟨_, rfl, by decide⟩, ⟨_, rfl, by decide⟩,
    ⟨_, rfl, by decide⟩⟩

/-- One for each way OF changes. -/
theorem witness_OutFifoIsAQueue :
    (∃ t, exec .cmdStart { s0 with heightH := 1#16 } = .next t ∧ t.outFifo ≠ s0.outFifo) ∧
    (∃ t, exec (.pixPush 0#8) (started 1#16 1#16 0#8 true) = .next t ∧
      t.outFifo ≠ (started 1#16 1#16 0#8 true).outFifo) ∧
    (∃ t, exec .outPop (started 1#16 1#16 0#8 true) = .next t ∧ t.outFifo ≠ (started 1#16 1#16 0#8 true).outFifo) ∧
    (∃ t, exec .cmdAbort (started 1#16 1#16 0#8 true) = .next t ∧
      t.outFifo ≠ (started 1#16 1#16 0#8 true).outFifo) :=
  ⟨⟨_, rfl, by decide⟩, ⟨_, rfl, by decide⟩, ⟨_, rfl, by decide⟩, ⟨_, rfl, by decide⟩⟩

/-- A push inside a row, and one that ends a row. -/
theorem witness_PositionFollowsScanOrder :
    ((started 2#16 2#16 0#8 true).Inv ∧ ∃ t, exec (.pixPush 0#8) (started 2#16 2#16 0#8 true) = .next t ∧
      t.x ≠ (started 2#16 2#16 0#8 true).x) ∧
    ((started 1#16 2#16 0#8 true).Inv ∧ ∃ t, exec (.pixPush 0#8) (started 1#16 2#16 0#8 true) = .next t ∧
      t.y ≠ (started 1#16 2#16 0#8 true).y) :=
  ⟨⟨started_inv _ _ (by decide) (by decide), _, rfl, by decide⟩, started_inv _ _ (by decide) (by decide), _, rfl,
    by decide⟩

theorem witness_ReadsQuietWritesIdempotent : MappedRead .rdCaps ∧ RwWrite (.wrIrqEn 4#32) :=
  ⟨by simp [MappedRead], 4#32, by simp⟩

theorem witness_ParametersConstant : ∃ t, step (s0.withFetchWord 48 0x202800000000) = .next t := ⟨_, rfl⟩

/-- A step that ends a row of a dithered frame. -/
theorem witness_StepKeepsInvariant :
    ({ started 1#16 2#16 128#8 true with events := [.transaction 0x600000000064#48] } : State).Inv ∧
    ∃ t, step { started 1#16 2#16 128#8 true with events := [.transaction 0x600000000064#48] } = .next t := by
  have h := started_inv (w := 1#16) (h := 2#16) 128#8 true (by decide) (by decide)
  exact ⟨⟨h.1, h.2, h.3, h.4, h.5, h.6, h.7, h.8, h.9, h.10, h.11, h.12, h.13, h.14⟩, _, rfl⟩

theorem witness_ErrorRange : (started 2#16 2#16 0#8 true).Inv ∧ (started 2#16 2#16 0#8 true).seq = .run ∧
    (started 2#16 2#16 0#8 true).ld = true := ⟨started_inv _ _ (by decide) (by decide), rfl, rfl⟩

/-- A frame in RUN with room in OF, and a frame in DRAIN. -/
theorem witness_ActiveFrameCanProgress :
    ((started 1#16 1#16 0#8 true).Inv ∧ (started 1#16 1#16 0#8 true).seq = .run) ∧
    (((started 1#16 1#16 0#8 true).acceptSample 0#8).Inv ∧
      ((started 1#16 1#16 0#8 true).acceptSample 0#8).seq = .drain) :=
  ⟨⟨started_inv _ _ (by decide) (by decide), rfl⟩,
    inv_acceptSample (started_inv _ _ (by decide) (by decide)) (by decide) _, by decide⟩

/-- The state before the START of a 1 by 1 frame. -/
def one : State := { s0 with widthW := 1#16, heightH := 1#16 }

/-- The transactions of a whole 1 by 1 frame, pushing first. -/
def pushFirst : List Instr := .pixPush 100#8 :: List.replicate 9 .outPop

/-- The same frame, popping first, with a register write between. -/
def popFirst : List Instr := List.replicate 8 .outPop ++ [.wrWidth 7#32, .pixPush 100#8, .outPop]

theorem pushFirst_done : (activeRun pushFirst (one.startFrame.answer none)).map (fun r => (r.1, r.2.seq)) =
    some ([0x1D#8, 0x76#8, 0x30#8, 0x00#8, 0x01#8, 0x00#8, 0x01#8, 0x00#8, 0x80#8], .done) := by decide

theorem popFirst_done : (activeRun popFirst (one.startFrame.answer none)).map (fun r => (r.1, r.2.seq)) =
    some ([0x1D#8, 0x76#8, 0x30#8, 0x00#8, 0x01#8, 0x00#8, 0x01#8, 0x00#8, 0x80#8], .done) := by decide

theorem done_of_map {is : List Instr} {t : State} {bs : List Byte} {q : SeqState}
    (h : (activeRun is t).map (fun r => (r.1, r.2.seq)) = some (bs, q)) :
    ∃ u, activeRun is t = some (bs, u) ∧ u.seq = q := by
  cases hr : activeRun is t with
  | none => simp [hr] at h
  | some r =>
    simp only [hr, Option.map_some, Option.some.injEq, Prod.mk.injEq] at h
    exact ⟨r.2, by rw [← h.1], h.2⟩

theorem witness_DeliveredBytesAreTheFrame : one.startAccepted = true ∧
    exec .cmdStart one = .next (one.startFrame.answer none) ∧
    ∃ bs u, activeRun pushFirst (one.startFrame.answer none) = some (bs, u) ∧ u.seq = .done :=
  ⟨by decide, rfl, _, done_of_map pushFirst_done⟩

/-- The state before the START of a 2 by 1 frame. -/
def two : State := { s0 with widthW := 2#16, heightH := 1#16 }

theorem two_half : (activeRun [.outPop, .pixPush 100#8] (two.startFrame.answer none)).map
    (fun r => (r.1, r.2.seq)) = some ([0x1D#8], .run) := by decide

/-- One of two samples pushed, one byte delivered. -/
theorem witness_DeliveredBytesArePrefix : two.startAccepted = true ∧
    exec .cmdStart two = .next (two.startFrame.answer none) ∧
    (∃ bs u, activeRun [.outPop, .pixPush 100#8] (two.startFrame.answer none) = some (bs, u) ∧ Active u) ∧
    (pushedSamples [.outPop, .pixPush 100#8] ++ [0#8]).length = two.widthW.toNat * two.heightH.toNat := by
  obtain ⟨u, hu, hq⟩ := done_of_map two_half
  exact ⟨by decide, rfl, ⟨_, u, hu, .inl hq⟩, by decide⟩

theorem witness_EveryFrameCanComplete : two.startAccepted = true ∧
    [0#8, 255#8].length = two.widthW.toNat * two.heightH.toNat := by decide

/-- The same samples pushed and popped in two orders. -/
theorem witness_FrameBytesIndependentOfInterleaving : one.startAccepted = true ∧
    exec .cmdStart one = .next (one.startFrame.answer none) ∧
    (∃ bs u, activeRun pushFirst (one.startFrame.answer none) = some (bs, u) ∧ u.seq = .done) ∧
    (∃ bs u, activeRun popFirst (one.startFrame.answer none) = some (bs, u) ∧ u.seq = .done) ∧
    pushedSamples pushFirst = pushedSamples popFirst :=
  ⟨by decide, rfl, ⟨_, done_of_map pushFirst_done⟩, ⟨_, done_of_map popFirst_done⟩, by decide⟩

theorem witness_FrameLayout : 0 < two.heightH.toNat ∧ 0 < (two.widthW.toNat + 7) / 8 ∧ 7 < 8 := by decide

/-- K-5: three black pixels and five padding bits; and pixel (2, 0) of a 3 by 1 image. -/
theorem witness_PackUnpackRoundTrip : [0xE0#8].length = (3 + 7) / 8 * 1 ∧
    (∀ y < 1, ∀ j < (3 + 7) / 8, ∀ b < 8, 3 ≤ 8 * j + b →
      ([0xE0#8].getD (y * ((3 + 7) / 8) + j) 0#8).getLsbD (7 - b) = false) ∧ 2 < 3 ∧ 0 < 1 := by decide

theorem witness_BytesPerLineBoundary : 1 ≤ 65535 ∧ 65535 ≤ 65535 ∧ 0 < 1 ∧ 7 < 8 ∧ 6 < 7 := by decide

theorem witness_FlatFramesCarryNoError : 1 ≤ 1 ∧ 255 ≤ 255 := by decide

/-- The largest values `frame` accepts with the smallest parameters, and the smallest. -/
theorem witness_FramePseudoStartsFrame :
    (¬ Active (State.resetWith p8) ∧ 1 ≤ (384#32 : Word).toNat ∧
      (384#32 : Word).toNat ≤ (State.resetWith p8).params.maxWidth ∧ 1 ≤ (65535#32 : Word).toNat ∧
      (65535#32 : Word).toNat ≤ 65535 ∧ (255#32 : Word).toNat ≤ 255 ∧ (1#32 : Word).toNat ≤ 1) ∧
    (1 ≤ (1#32 : Word).toNat ∧ (1#32 : Word).toNat ≤ (State.resetWith p8).params.maxWidth) := by decide

/-- R55 and R56 by name: the first and last register, the last offset mapped, the next one, and the codes around CLEAR. -/
theorem test_named_lines :
    [AsmLine.rd .ctrl, .rdAt 0x28#8, .rdAt 0x2C#8, .rdAt 0x05#8, .wr .cmd 3#32, .wr .cmd 4#32, .wr .irqEn 3#32].map namedBy =
    [.rdCtrl, .rdCaps, .rdUnmapped 0x2C#8, .rdUnmapped 0x05#8, .cmdClear, .cmdReserved 4#32, .wrIrqEn 3#32] := by decide

/-- STATE is IDLE after reset; a poll for RUN does not end there, and no poll ends without a read. -/
theorem witness_PollOnlyReads : (poll .status 7#32 0#32 1 s0).isSome = true ∧ poll .status 7#32 1#32 3 s0 = none ∧
    poll .status 7#32 0#32 0 s0 = none := by decide

theorem witness_WriteStatusLeavesStatus : s0.errEn = false ∧ { s0 with errEn := true }.errEn = true ∧ 4 ≠ 5 ∧ 6 ≠ 5 := by
  decide

/-- R84, R125: with ERR_EN = 1 the raised BADWRITE lifts IRQ (log 18); with ERR_EN = 0 it does not. -/
theorem test_wr_status_irq :
    (after (exec (.wrStatus 0#32) { s0 with errEn := true })).map (·.irq) = some true ∧
    (after (exec (.wrStatus 0#32) s0)).map (·.irq) = some false := by decide

end Sys2Proof.Tests
end

/-! PROOF. The equations of `step`, one per branch of its definition, and the statements of 00_scope.md. -/

namespace Sys2Proof.Machine

section StepEquations

variable {s : State} {rest : List Event} {td : Td}

theorem step_of_no_event (h : s.events = []) : step s = .fault .noTransaction := by
  simp only [step, h]

theorem step_of_reset (h : s.events = .reset :: rest) :
    step s = .next ({ s with events := rest }).applyReset := by
  simp only [step, h]

theorem step_of_decode_error {why : Reserved} (h : s.events = .transaction td :: rest)
    (hd : decode td = .error why) : step s = .refused (.reservedTd why) := by
  simp only [step, h, hd]

theorem step_of_decode_ok {i : Instr} (h : s.events = .transaction td :: rest) (hd : decode td = .ok i) :
    step s = exec i { s with events := rest } := by
  simp only [step, h, hd]

end StepEquations

/-- Settles O6: it is the equation of `step`'s branch for a TD that decodes. -/
theorem stepRunsDecodedTransaction : Obligations.StepRunsDecodedTransaction := by
  intro s td rest i hevents hdecode
  exact step_of_decode_ok hevents hdecode

/-- Settles O7: it is the equation of `step`'s branch for an empty list of events. -/
theorem nothingOfferedNoStep : Obligations.NothingOfferedNoStep := by
  intro s hevents
  exact step_of_no_event hevents

end Sys2Proof.Machine

/-! PROOF. What every step keeps and what each transaction may change: the statements of 10_state.md. -/

namespace Sys2Proof.Machine

open Sys2Proof.Claims

section Inversion

variable {s t : State}

/-- What a step that answers a next state did: the reset pulse, or the transaction its TD spells. -/
theorem step_next_cases (h : step s = .next t) :
    (∃ rest, s.events = .reset :: rest ∧ t = ({ s with events := rest }).applyReset) ∨
    (∃ td rest i, s.events = .transaction td :: rest ∧ decode td = .ok i ∧
      exec i { s with events := rest } = .next t) := by
  cases hev : s.events with
  | nil =>
    rw [step_of_no_event hev] at h
    cases h
  | cons e rest =>
    cases e with
    | reset =>
      rw [step_of_reset hev] at h
      cases h
      exact .inl ⟨rest, rfl, rfl⟩
    | transaction td =>
      cases hd : decode td with
      | error why =>
        rw [step_of_decode_error hev hd] at h
        cases h
      | ok i =>
        rw [step_of_decode_ok hev hd] at h
        exact .inr ⟨td, rest, i, rfl, hd, h⟩

/-- START is performed exactly when neither of R90's two preconditions fails. -/
theorem startAccepted_iff_not_active_not_badSize : s.startAccepted = true ↔ ¬ Active s ∧ ¬ BadSize s := by
  rw [startAccepted_iff]
  simp only [Active, BadSize, not_or, not_lt, ne_eq, ← BitVec.toNat_inj, BitVec.toNat_ofNat, Nat.zero_mod]
  tauto

theorem afterClear_ne_iff (q : SeqState) : q.afterClear ≠ q ↔ q = .done ∨ q = .aborted := by
  cases q <;> simp [SeqState.afterClear]

theorem afterClear_eq_idle {q : SeqState} (h : q = .done ∨ q = .aborted) : q.afterClear = .idle := by
  rcases h with rfl | rfl <;> rfl

theorem afterPop_ne_iff (q : SeqState) (rest : List Byte) : q.afterPop rest ≠ q ↔ q = .drain ∧ rest = [] := by
  unfold SeqState.afterPop
  by_cases h : q = .drain ∧ rest = []
  · simp [h]
  · simp [h]

end Inversion

/-! ### The invariant -/

section Invariant

variable {s t : State} {i : Instr}

/-- The invariant does not read the outside of the ports (log 3). -/
theorem inv_withEvents (h : s.Inv) (es : List Event) : ({ s with events := es } : State).Inv :=
  ⟨h.1, h.2, h.3, h.4, h.5, h.6, h.7, h.8, h.9, h.10, h.11, h.12, h.13, h.14⟩

/-- The reset state satisfies the invariant, whatever the parameters (70_reset_and_hazards.md R133). -/
theorem inv_resetWith (p : Params) : (State.resetWith p).Inv :=
  inv_of_quiet rfl rfl (by simp [State.resetWith]) wf_nil wf_nil

/-- A transaction that is taken keeps the invariant. -/
theorem inv_exec (h : s.Inv) (he : exec i s = .next t) : t.Inv := by
  cases exec_next_cases he with
  | quiet => exact inv_answer h _
  | raised => exact inv_answer (inv_raise h _) _
  | written => exact inv_answer (inv_withRegs h ..) _
  | started ha => exact inv_answer (inv_startFrame ha) _
  | aborted => exact inv_answer (inv_abandonFrame h) _
  | cleared => exact inv_answer (inv_clear h) _
  | pushed smp hr => exact inv_answer (inv_acceptSample h hr smp) _
  | popped b rest hf => exact inv_answer (inv_popTo h hf) _

end Invariant

/-- Settles O42: the reset pulse leaves a reset state, and a transaction keeps the invariant by `inv_exec`. -/
theorem stepKeepsInvariant : Obligations.StepKeepsInvariant := by
  intro s t hinv hstep
  rcases step_next_cases hstep with ⟨rest, -, rfl⟩ | ⟨td, rest, i, -, -, hexec⟩
  · exact inv_withEvents (inv_resetWith s.params) rest
  · exact inv_exec (inv_withEvents hinv rest) hexec

/-! ### What a transaction may change -/

/-- A transaction that is taken keeps the parameters (R8, R26). -/
theorem exec_params {i : Instr} {s t : State} (h : exec i s = .next t) : t.params = s.params := by
  cases exec_next_cases h with
  | pushed smp => exact State.acceptSample_params s smp
  | quiet | raised | written | started | aborted | cleared | popped => rfl

/-- Settles O40: the reset pulse keeps the parameters by its definition, a transaction by `exec_params`. -/
theorem parametersConstant : Obligations.ParametersConstant := by
  intro s t hstep
  rcases step_next_cases hstep with ⟨rest, -, rfl⟩ | ⟨td, rest, i, -, -, hexec⟩
  · rfl
  · exact exec_params (s := { s with events := rest }) hexec

/-- Settles O34: each effect that writes STATE is one of R27's transitions. -/
theorem sequencerTransitions : Obligations.SequencerTransitions := by
  intro i s t hexec hseq
  cases exec_next_cases hexec with
  | quiet | raised | written => exact absurd rfl hseq
  | started ha =>
    obtain ⟨⟨hrun, hdrain⟩, -⟩ := startAccepted_iff.1 ha
    refine .inl ⟨rfl, ?_, rfl⟩
    cases hq : s.seq <;> simp_all
  | pushed smp hr =>
    rw [State.answer_seq, acceptSample_seq] at hseq ⊢
    by_cases hlast : s.RowEnd ∧ s.y.toNat + 1 = s.lh.toNat
    · exact .inr (.inl ⟨smp, rfl, (inReady_iff.1 hr).1, if_pos hlast, hlast⟩)
    · exact absurd (if_neg hlast) hseq
  | popped b rest =>
    obtain ⟨hdrain, rfl⟩ := (afterPop_ne_iff s.seq rest).1 hseq
    exact .inr (.inr (.inl ⟨rfl, hdrain, by simp [hdrain, SeqState.afterPop], rfl⟩))
  | aborted ha => exact .inr (.inr (.inr (.inl ⟨rfl, frameActive_iff.1 ha, rfl⟩)))
  | cleared =>
    have hq := (afterClear_ne_iff s.seq).1 hseq
    exact .inr (.inr (.inr (.inr ⟨rfl, hq, afterClear_eq_idle hq⟩)))

/-- Settles O35: of the effects only `started` writes the latched parameters, and it is excluded. -/
theorem latchedParametersHold : Obligations.LatchedParametersHold := by
  intro i s t hexec hnot
  cases exec_next_cases hexec with
  | started ha =>
    obtain ⟨hactive, hsize⟩ := startAccepted_iff_not_active_not_badSize.1 ha
    simp [hactive, hsize] at hnot
  | pushed smp => simp
  | quiet | raised | written | aborted | cleared | popped => exact ⟨rfl, rfl, rfl, rfl⟩

/-- Settles O37: OF after each effect that writes it. -/
theorem outFifoIsAQueue : Obligations.OutFifoIsAQueue := by
  intro i s t hexec hfifo
  cases exec_next_cases hexec with
  | quiet | raised | written | cleared => exact absurd rfl hfifo
  | started ha =>
    obtain ⟨hactive, hsize⟩ := startAccepted_iff_not_active_not_badSize.1 ha
    exact .inl ⟨rfl, hactive, hsize, rfl⟩
  | pushed smp =>
    rw [State.answer_outFifo, acceptSample_outFifo] at hfifo ⊢
    by_cases hend : s.ByteEnd
    · exact .inr (.inl ⟨smp, _, rfl, by rw [if_pos hend]⟩)
    · simp [hend] at hfifo
  | popped b rest hf => exact .inr (.inr (.inl ⟨b, rfl, hf, rfl⟩))
  | aborted ha => exact .inr (.inr (.inr ⟨rfl, frameActive_iff.1 ha, rfl⟩))

/-- A push that is taken moves the position to the next pixel in row-major order (R29, R95, R106). -/
theorem acceptSample_position {s : State} (h : s.Inv) (hs : s.seq = .run) (smp : Byte) :
    (s.acceptSample smp).y.toNat * s.lw.toNat + (s.acceptSample smp).x.toNat
      = s.y.toNat * s.lw.toNat + s.x.toNat + 1 ∧ (s.acceptSample smp).x.toNat < s.lw.toNat := by
  obtain ⟨hx, hy⟩ := h.position hs
  have hlw := s.lw.isLt
  have hlh := s.lh.isLt
  rw [acceptSample_x, acceptSample_y]
  by_cases hend : s.RowEnd
  · have hrow : s.x.toNat + 1 = s.lw.toNat := hend
    rw [if_pos hend, if_pos hend, BitVec.toNat_ofNat, Nat.mod_eq_of_lt (by omega), Nat.succ_mul]
    simp
    omega
  · have hrow : s.x.toNat + 1 ≠ s.lw.toNat := hend
    rw [if_neg hend, if_neg hend, BitVec.toNat_ofNat, Nat.mod_eq_of_lt (by omega)]
    omega

/-- Settles O38: the position after each effect that writes it. -/
theorem positionFollowsScanOrder : Obligations.PositionFollowsScanOrder := by
  intro i s t hinv hexec hpos
  cases exec_next_cases hexec with
  | started => exact .inl ⟨rfl, rfl, rfl⟩
  | pushed smp hr => exact .inr ⟨smp, rfl, acceptSample_position hinv (inReady_iff.1 hr).1 smp⟩
  | quiet | raised | written | aborted | cleared | popped => exact (hpos.elim (· rfl) (· rfl)).elim

/-! ### The programmed registers -/

/-- The programmed registers (R16 to R21). -/
def State.config (s : State) : Bool × Half × Half × Byte × Word × Bool × Bool :=
  (s.ctrlDither, s.widthW, s.heightH, s.thresholdT, s.prefixWord, s.doneEn, s.errEn)

/-- What a transaction that is taken can do to the programmed registers: keep them all, or be the legal write of one of
them (40_register_access.md R77 to R83). `Effect` does not say which register a write is of. -/
inductive ConfigEffect (s : State) : Instr → State → Prop where
  | kept (i t) (h : t.config = s.config) : ConfigEffect s i t
  | ctrl (v : Word) (hv : v.toNat ≤ 1) : ConfigEffect s (.wrCtrl v) (({ s with ctrlDither := v.getLsbD 0 }).answer none)
  | width (v : Word) (hv : v.toNat ≤ 65535) :
    ConfigEffect s (.wrWidth v) (({ s with widthW := v.setWidth 16 }).answer none)
  | height (v : Word) (hv : v.toNat ≤ 65535) :
    ConfigEffect s (.wrHeight v) (({ s with heightH := v.setWidth 16 }).answer none)
  | threshold (v : Word) (hv : v.toNat ≤ 255) :
    ConfigEffect s (.wrThreshold v) (({ s with thresholdT := v.setWidth 8 }).answer none)
  | prefixReg (v : Word) : ConfigEffect s (.wrPrefix v) (({ s with prefixWord := v }).answer none)
  | irqEn (v : Word) (hv : v.toNat ≤ 3) :
    ConfigEffect s (.wrIrqEn v) (({ s with doneEn := v.getLsbD 0, errEn := v.getLsbD 1 }).answer none)

section Config

variable {s t u : State} {i : Instr}

/-- A write has its effect when its value is legal, and else keeps the registers (R77). -/
theorem configEffect_writeIf {p : Prop} [Decidable p] (hu : p → ConfigEffect s i (u.answer none)) :
    ConfigEffect s i (s.writeIf (decide p) u) := by
  unfold State.writeIf
  by_cases hp : p
  · simpa [hp] using hu hp
  · rw [decide_eq_false hp]
    exact .kept i _ rfl

/-- A pixel push keeps the programmed registers (42_quantizer_dither.md R96). -/
theorem acceptSample_config (s : State) (smp : Byte) : (s.acceptSample smp).config = s.config := by
  simp [State.config]

/-- What a transaction that is taken does to the programmed registers. -/
theorem exec_configEffect (h : exec i s = .next t) : ConfigEffect s i t := by
  cases i with
  | wrCtrl v =>
    cases h
    exact ctrlLegal_eq v ▸ configEffect_writeIf (.ctrl v)
  | wrWidth v =>
    cases h
    exact halfLegal_eq v ▸ configEffect_writeIf (.width v)
  | wrHeight v =>
    cases h
    exact halfLegal_eq v ▸ configEffect_writeIf (.height v)
  | wrThreshold v =>
    cases h
    exact byteLegal_eq v ▸ configEffect_writeIf (.threshold v)
  | wrPrefix v =>
    cases h
    exact .prefixReg v
  | wrIrqEn v =>
    cases h
    exact irqEnLegal_eq v ▸ configEffect_writeIf (.irqEn v)
  | cmdStart =>
    cases h
    refine .kept _ _ ?_
    split
    · rfl
    · split <;> rfl
  | cmdAbort =>
    cases h
    refine .kept _ _ ?_
    split <;> rfl
  | pixPush smp =>
    cases exec_next_cases h with
    | quiet _ hi | raised _ hi | written _ hi => exact absurd rfl (hi.2 smp)
    | pushed => exact .kept _ _ (acceptSample_config s smp)
  | outPop =>
    cases exec_next_cases h with
    | quiet _ hi | raised _ hi | written _ hi => exact absurd rfl hi.1
    | popped => exact .kept _ _ rfl
  | rdCtrl | rdWidth | rdHeight | rdThreshold | rdPrefix | rdIrqEn | rdCmd | rdStatus | rdErr | rdPos | rdCaps
  | rdUnmapped | wrStatus | wrErr | wrPos | wrCaps | wrUnmapped | cmdNop | cmdClear | cmdReserved =>
    cases h
    exact .kept _ _ rfl

end Config

/-- Bit 0 of a number below 2 is the number. -/
theorem getLsbD_zero_toNat {v : Word} (hv : v.toNat ≤ 1) : (v.getLsbD 0).toNat = v.toNat := by
  rw [BitVec.getLsbD, Nat.toNat_testBit]
  omega

/-- Bits 1 and 0 of a number below 4 make up the number. -/
theorem getLsbD_one_zero_toNat {v : Word} (hv : v.toNat ≤ 3) :
    2 * (v.getLsbD 1).toNat + (v.getLsbD 0).toNat = v.toNat := by
  rw [BitVec.getLsbD, BitVec.getLsbD, Nat.toNat_testBit, Nat.toNat_testBit]
  omega

/-- Settles O36: a register that changed was written, and the legal value written is the value held. -/
theorem configRegistersHoldUntilWritten : Obligations.ConfigRegistersHoldUntilWritten := by
  intro i s t hexec
  cases exec_configEffect hexec with
  | kept _ _ h =>
    simp only [State.config, Prod.mk.injEq] at h
    simp [h]
  | ctrl v hv => simpa using fun _ => ⟨hv, getLsbD_zero_toNat hv⟩
  | width v hv => simpa using fun _ => Nat.lt_succ_of_le hv
  | height v hv => simpa using fun _ => Nat.lt_succ_of_le hv
  | threshold v hv => simpa using fun _ => Nat.lt_succ_of_le hv
  | prefixReg v => simp
  | irqEn v hv => simpa using fun _ => getLsbD_one_zero_toNat hv

end Sys2Proof.Machine

/-! PROOF. The side effects of register accesses: the statements of 20_memory.md. -/

namespace Sys2Proof.Machine

open Sys2Proof.Claims

/-- A read of a mapped register sets the return value and nothing else (R42). -/
theorem exec_mappedRead {i : Instr} (h : MappedRead i) (s : State) :
    ∃ v, exec i s = .next { s with ret := some v } := by
  rcases h with rfl | rfl | rfl | rfl | rfl | rfl | rfl | rfl | rfl | rfl | rfl
  all_goals exact ⟨_, rfl⟩

section WriteTwice

variable {s : State} {i : Instr} {legal : Bool} {put : State → State}

/-- An ERR bit that is raised again is set already (60_exceptions.md R120). -/
theorem raise_answer_raise_answer (s : State) (e : ErrCause) (r : Option Word) :
    (((s.raise e).answer r).raise e).answer r = (s.raise e).answer r := by
  simp only [State.raise, State.answer, BitVec.or_assoc, BitVec.or_self]

/-- A register write done again changes nothing more: a performed one stores what is there, a rejected one raises the
ERR bit that is set (40_register_access.md R77). `put` stores the value in the register. -/
theorem writeIf_writeIf (hput : (put ((put s).answer none)).answer none = (put s).answer none) :
    (s.writeIf legal (put s)).writeIf legal (put (s.writeIf legal (put s))) = s.writeIf legal (put s) := by
  cases legal with
  | true => exact hput
  | false => exact raise_answer_raise_answer s .badWrite none

/-- A transaction whose meaning is a register write leaves, done twice, what it leaves done once. -/
theorem exec_twice_of_writeIf (hexec : ∀ u, exec i u = .next (u.writeIf legal (put u)))
    (hput : (put ((put s).answer none)).answer none = (put s).answer none) :
    ∃ t, exec i s = .next t ∧ exec i t = .next t :=
  ⟨_, hexec s, by rw [hexec, writeIf_writeIf hput]⟩

/-- A write to a read/write register leaves, done twice, what it leaves done once (R42). The cases differ in the values
that are legal; to PREFIX every value is (40_register_access.md R82). -/
theorem exec_rwWrite_twice (h : RwWrite i) (s : State) : ∃ t, exec i s = .next t ∧ exec i t = .next t := by
  obtain ⟨v, rfl | rfl | rfl | rfl | rfl | rfl⟩ := h
  · exact exec_twice_of_writeIf (legal := ctrlLegal v) (fun _ => rfl) rfl
  · exact exec_twice_of_writeIf (legal := halfLegal v) (fun _ => rfl) rfl
  · exact exec_twice_of_writeIf (legal := halfLegal v) (fun _ => rfl) rfl
  · exact exec_twice_of_writeIf (legal := byteLegal v) (fun _ => rfl) rfl
  · exact exec_twice_of_writeIf (legal := true) (fun _ => rfl) rfl
  · exact exec_twice_of_writeIf (legal := irqEnLegal v) (fun _ => rfl) rfl

end WriteTwice

/-- Settles O39: each mapped read only answers, and a register write is idempotent by `writeIf_writeIf`. -/
theorem readsQuietWritesIdempotent : Obligations.ReadsQuietWritesIdempotent :=
  ⟨fun _ s h => exec_mappedRead h s, fun _ s h => exec_rwWrite_twice h s⟩

end Sys2Proof.Machine

/-! PROOF. What the decoder answers for every TD (30_encoding.md R52 to R59): the forms of R53, the reserved TDs of R54,
the round trip with the encoder, and the opcode table. -/

namespace Sys2Proof.Machine

open Sys2Proof.Laws

/-- Settles O1: the round trip of each of the 30 constructors. -/
theorem decodeEncodeRoundTrip : Obligations.DecodeEncodeRoundTrip := by
  intro i
  cases i with
  | rdCtrl => exact RoundTrip.rdCtrl
  | rdWidth => exact RoundTrip.rdWidth
  | rdHeight => exact RoundTrip.rdHeight
  | rdThreshold => exact RoundTrip.rdThreshold
  | rdPrefix => exact RoundTrip.rdPrefix
  | rdIrqEn => exact RoundTrip.rdIrqEn
  | rdCmd => exact RoundTrip.rdCmd
  | rdStatus => exact RoundTrip.rdStatus
  | rdErr => exact RoundTrip.rdErr
  | rdPos => exact RoundTrip.rdPos
  | rdCaps => exact RoundTrip.rdCaps
  | rdUnmapped o => exact RoundTrip.rdUnmapped o
  | wrCtrl v => exact RoundTrip.wrCtrl v
  | wrWidth v => exact RoundTrip.wrWidth v
  | wrHeight v => exact RoundTrip.wrHeight v
  | wrThreshold v => exact RoundTrip.wrThreshold v
  | wrPrefix v => exact RoundTrip.wrPrefix v
  | wrIrqEn v => exact RoundTrip.wrIrqEn v
  | wrStatus v => exact RoundTrip.wrStatus v
  | wrErr v => exact RoundTrip.wrErr v
  | wrPos v => exact RoundTrip.wrPos v
  | wrCaps v => exact RoundTrip.wrCaps v
  | wrUnmapped o v => exact RoundTrip.wrUnmapped o v
  | cmdNop => exact RoundTrip.cmdNop
  | cmdStart => exact RoundTrip.cmdStart
  | cmdAbort => exact RoundTrip.cmdAbort
  | cmdClear => exact RoundTrip.cmdClear
  | cmdReserved v => exact RoundTrip.cmdReserved v
  | pixPush smp => exact RoundTrip.pixPush smp
  | outPop => exact RoundTrip.outPop

/-- Settles O5: the decoder run on each of the nine words. -/
theorem specWordsDecode : Obligations.SpecWordsDecode :=
  ⟨rfl, rfl, rfl, rfl, rfl, rfl, rfl, rfl, rfl⟩

/-! ### The TDs that decode -/

section Fields

variable {td td' : Td} {p : BitVec 2} {d : BitVec 1} {o : Byte} {v : Word} {i : Instr}

/-- A TD whose RSV is 0 is built from its other fields, known by their values. -/
theorem mkTd_eq (hrsv : tdRsv td = 0#5) (hport : tdPort td = p) (hdir : tdDir td = d) (hoff : tdOffset td = o)
    (hdata : tdData td = v) : mkTd p d o v = td := by
  subst hport hdir hoff hdata
  exact mkTd_fields hrsv

theorem port_cases : ∀ p : BitVec 2, p = 0b00#2 ∨ p = 0b01#2 ∨ p = 0b10#2 ∨ p = 0b11#2 := by decide

/-- A word whose bits 31:8 are 0 is a sample (R57). -/
theorem setWidth_setWidth_of_sample (h : v.extractLsb' 8 24 = 0#24) : (v.setWidth 8).setWidth 32 = v := by
  have hlt := (extractLsb'_eq_zero_iff v 8 24 rfl).1 h
  apply BitVec.eq_of_toNat_eq
  simp
  omega

/-- The TDs of the four forms of R53, each with the transaction it spells. -/
inductive Spells : Td → Instr → Prop where
  | read (o : Byte) : Spells (encodeRead o) (decodeRead o)
  | write (o : Byte) (v : Word) : Spells (encodeWrite o v) (decodeWrite o v)
  | push (smp : Byte) : Spells (encode (.pixPush smp)) (.pixPush smp)
  | pop : Spells (encode .outPop) .outPop

theorem Spells.of_eq (h : Spells td i) (htd : td = td') : Spells td' i := htd ▸ h

/-- A TD that decodes is of one of the four forms: one case per branch of the decoder that answers a transaction. -/
theorem spells_of_decode_eq_ok (h : decode td = .ok i) : Spells td i := by
  have hd01 := BitVec.eq_zero_or_eq_one (tdDir td)
  unfold decode at h
  split_ifs at h with hp3 hrsv hp0 hd hv hp1 hd ho hv hd ho hv
  all_goals
    cases h
    replace hrsv := not_not.1 hrsv
  · exact (Spells.write _ _).of_eq (mkTd_eq hrsv hp0 hd rfl rfl)
  · exact (Spells.read _).of_eq (mkTd_eq hrsv hp0 (hd01.resolve_right hd) rfl (not_not.1 hv))
  · have hdata := (setWidth_setWidth_of_sample (not_not.1 hv)).symm
    exact (Spells.push _).of_eq (mkTd_eq hrsv hp1 (hd01.resolve_left hd) (not_not.1 ho) hdata)
  · have hp2 : tdPort td = 0b10#2 := by simpa [hp0, hp1, hp3] using port_cases (tdPort td)
    exact Spells.pop.of_eq (mkTd_eq hrsv hp2 (hd01.resolve_right hd) (not_not.1 ho) (not_not.1 hv))

end Fields

/-- Settles O2: each of the four forms spells a transaction that encodes to it. -/
theorem decodedTransactionEncodesBack : Obligations.DecodedTransactionEncodesBack := by
  intro td i hdecode
  cases spells_of_decode_eq_ok hdecode with
  | read o => exact decodeRead_spec o
  | write o v => exact decodeWrite_spec o v
  | push smp => exact ⟨trivial, rfl⟩
  | pop => exact ⟨trivial, rfl⟩

/-! ### The reserved TDs -/

/-- A branch that refuses adds its condition to those under which the whole refuses. -/
theorem exists_ite_error {ε α : Type} {c : Prop} [Decidable c] {e : ε} {x : Except ε α} :
    (∃ why, (if c then .error e else x) = .error why) ↔ c ∨ ∃ why, x = .error why := by
  by_cases hc : c <;> simp [hc]

/-- The reserved TDs by their fields (R54). -/
theorem decode_error_iff (td : Td) : (∃ why, decode td = .error why) ↔
    tdPort td = 0b11#2 ∨ tdRsv td ≠ 0#5 ∨
    (tdPort td = 0b01#2 ∧ (tdDir td = 0#1 ∨ tdOffset td ≠ 0#8 ∨ (tdData td).extractLsb' 8 24 ≠ 0#24)) ∨
    (tdPort td = 0b10#2 ∧ (tdDir td = 1#1 ∨ tdOffset td ≠ 0#8 ∨ tdData td ≠ 0#32)) ∨
    (tdPort td = 0b00#2 ∧ tdDir td = 0#1 ∧ tdData td ≠ 0#32) := by
  unfold decode
  rcases port_cases (tdPort td) with hp | hp | hp | hp
  · rcases BitVec.eq_zero_or_eq_one (tdDir td) with hd | hd
    all_goals
      simp only [hp, hd, exists_ite_error, reduceIte, BitVec.reduceEq]
      simp
  all_goals
    simp only [hp, exists_ite_error, reduceIte, BitVec.reduceEq]
    simp

theorem tdDir_eq_zero_iff (td : Td) : tdDir td = 0#1 ↔ td.getLsbD 45 = false := by
  simp [tdDir, BitVec.eq_of_getLsbD_eq_iff]

theorem tdDir_eq_one_iff (td : Td) : tdDir td = 1#1 ↔ td.getLsbD 45 = true := by
  simp [tdDir, BitVec.eq_of_getLsbD_eq_iff]

theorem extractLsb'_tdData (td : Td) : (tdData td).extractLsb' 8 24 = td.extractLsb' 8 24 := by
  ext k hk
  simp [tdData]

/-- Settles O3: `decode_error_iff` with the fields written as bits, and the equation of `step` on a refused TD. -/
theorem reservedTdsRefused : Obligations.ReservedTdsRefused := by
  intro td
  refine ⟨?_, fun s rest why hevents hdecode => step_of_decode_error hevents hdecode⟩
  rw [decode_error_iff, tdDir_eq_zero_iff, tdDir_eq_one_iff, extractLsb'_tdData]
  rfl

/-! ### The opcode table -/

section Table

variable {r r₁ r₂ : OpcodeRow} {td : Td}

/-- A TD is its fields (R52). -/
theorem td_eq_iff {a b : Td} : a = b ↔
    tdPort a = tdPort b ∧ tdDir a = tdDir b ∧ tdRsv a = tdRsv b ∧ tdOffset a = tdOffset b ∧ tdData a = tdData b := by
  refine ⟨fun h => by simp [h], fun ⟨hp, hd, hr, ho, hv⟩ => BitVec.eq_of_toNat_eq ?_⟩
  have := a.isLt
  have := b.isLt
  simp only [tdPort, tdDir, tdRsv, tdOffset, tdData, ← BitVec.toNat_inj, BitVec.extractLsb'_toNat,
    Nat.shiftRight_eq_div_pow] at hp hd hr ho hv
  omega

/-- A row matches a TD where it matches each field. -/
theorem matches_iff : r.Matches td = true ↔
    tdPort td &&& tdPort r.mask = tdPort r.value ∧ tdDir td &&& tdDir r.mask = tdDir r.value ∧
      tdRsv td &&& tdRsv r.mask = tdRsv r.value ∧ tdOffset td &&& tdOffset r.mask = tdOffset r.value ∧
      tdData td &&& tdData r.mask = tdData r.value := by
  simp only [OpcodeRow.Matches, beq_iff_eq, td_eq_iff, tdPort, tdDir, tdRsv, tdOffset, tdData, BitVec.extractLsb'_and]

theorem matches_mkTd_iff {p : BitVec 2} {d : BitVec 1} {o : Byte} {v : Word} : r.Matches (mkTd p d o v) = true ↔
    p &&& tdPort r.mask = tdPort r.value ∧ d &&& tdDir r.mask = tdDir r.value ∧ 0#5 = tdRsv r.value ∧
      o &&& tdOffset r.mask = tdOffset r.value ∧ v &&& tdData r.mask = tdData r.value := by
  simp [matches_iff]

/-- Two rows of equal priority have different values under both their masks. -/
theorem eq_of_values_agree : ∀ r₁ ∈ opcodeRows, ∀ r₂ ∈ opcodeRows, r₁.priority = r₂.priority →
    r₁.value &&& r₂.mask = r₂.value &&& r₁.mask → r₁ = r₂ := by
  decide

/-- At most one row of a priority matches a TD (R59). -/
theorem eq_of_matches (h₁ : r₁ ∈ opcodeRows) (h₂ : r₂ ∈ opcodeRows) (hp : r₁.priority = r₂.priority)
    (hm₁ : r₁.Matches td = true) (hm₂ : r₂.Matches td = true) : r₁ = r₂ := by
  simp only [OpcodeRow.Matches, beq_iff_eq] at hm₁ hm₂
  refine eq_of_values_agree r₁ h₁ r₂ h₂ hp ?_
  rw [← hm₁, ← hm₂, BitVec.and_assoc, BitVec.and_assoc, BitVec.and_comm r₁.mask]

theorem lookupAt_eq_some (hr : r ∈ opcodeRows) (hm : r.Matches td = true) : lookupAt r.priority td = some r := by
  cases h : lookupAt r.priority td with
  | none => simpa [hm] using List.find?_eq_none.1 h r hr
  | some r' =>
    have hr' := List.find?_some h
    simp only [Bool.and_eq_true, beq_iff_eq] at hr'
    rw [eq_of_matches (List.mem_of_find?_eq_some h) hr hr'.1 hr'.2 hm]

theorem lookupAt_eq_none {p : Nat} (h : ∀ r ∈ opcodeRows, r.Matches td = true → p < r.priority) :
    lookupAt p td = none := by
  rw [lookupAt, List.find?_eq_none]
  intro r hr hm
  simp only [Bool.and_eq_true, beq_iff_eq] at hm
  exact (h r hr hm.2).ne' hm.1

theorem priority_le_two : ∀ r ∈ opcodeRows, r.priority ≤ 2 := by decide

/-- The lookup of R59 finds the matching row whose priority is least. -/
theorem tableLookup_of_least (hr : r ∈ opcodeRows) (hm : r.Matches td = true)
    (hleast : ∀ r' ∈ opcodeRows, r'.Matches td = true → r.priority ≤ r'.priority) :
    tableLookup td = some r.mnemonic := by
  have hsome := lookupAt_eq_some hr hm
  have hnone : ∀ p < r.priority, lookupAt p td = none := fun p hp =>
    lookupAt_eq_none fun r' hr' hm' => hp.trans_le (hleast r' hr' hm')
  have hle := priority_le_two r hr
  unfold tableLookup
  interval_cases hp : r.priority
  · simp [hsome]
  · simp [hsome, hnone 0]
  · simp [hsome, hnone 0, hnone 1]

/-- A row of priority 0 or 1 asks for a mapped offset (R55, R59). -/
theorem mapped_of_priority_lt_two : ∀ r ∈ opcodeRows, r.priority < 2 →
    tdOffset r.mask = BitVec.allOnes 8 ∧ Mapped (tdOffset r.value) := by
  decide

/-- A row of priority 0 at CMD's offset asks for the code of a command; RD_CMD's DATA of 0 is one too (R56, R59). -/
theorem commandCode_of_priority_eq_zero : ∀ r ∈ opcodeRows, r.priority = 0 → tdOffset r.value = 0x18#8 →
    tdData r.mask = BitVec.allOnes 32 ∧ CommandCode (tdData r.value) := by
  decide

/-- An unmapped offset is left to the rows of priority 2. -/
theorem two_le_priority_of_not_mapped (hr : r ∈ opcodeRows) (hm : r.Matches td = true) (ho : ¬ Mapped (tdOffset td)) :
    2 ≤ r.priority := by
  by_contra hp
  obtain ⟨hmask, hmapped⟩ := mapped_of_priority_lt_two r hr (by omega)
  obtain ⟨-, -, -, hoff, -⟩ := matches_iff.1 hm
  rw [hmask, BitVec.and_allOnes] at hoff
  exact ho (hoff ▸ hmapped)

/-- A reserved command is left to the rows of priority 1 and 2. -/
theorem one_le_priority_of_not_commandCode (hr : r ∈ opcodeRows) (hm : r.Matches td = true) (ho : tdOffset td = 0x18#8)
    (hv : ¬ CommandCode (tdData td)) : 1 ≤ r.priority := by
  by_contra hp
  obtain ⟨-, -, -, hoff, hdata⟩ := matches_iff.1 hm
  rw [(mapped_of_priority_lt_two r hr (by omega)).1, BitVec.and_allOnes, ho] at hoff
  obtain ⟨hmask, hcode⟩ := commandCode_of_priority_eq_zero r hr (by omega) hoff.symm
  rw [hmask, BitVec.and_allOnes] at hdata
  exact hv (hdata ▸ hcode)

/-- A row of the register writes that fixes the offset alone is found for every DATA. -/
theorem tableLookup_encodeWrite_of_row {name : String} {o : Byte} {v : Word}
    (hr : ⟨name, encodeWrite o 0#32, 0xFFFF00000000#48, 0⟩ ∈ opcodeRows) :
    tableLookup (encodeWrite o v) = some name := by
  refine tableLookup_of_least hr ?_ fun _ _ _ => Nat.zero_le _
  have hmask : tdPort 0xFFFF00000000#48 = BitVec.allOnes 2 ∧ tdDir 0xFFFF00000000#48 = BitVec.allOnes 1 ∧
    tdOffset 0xFFFF00000000#48 = BitVec.allOnes 8 ∧ tdData 0xFFFF00000000#48 = 0#32 := by decide
  simp [encodeWrite, matches_mkTd_iff, hmask, -BitVec.reduceAllOnes]

/-- The lookup finds the name of every transaction at its TD. -/
theorem tableLookup_encode {i : Instr} (h : i.Wf) : tableLookup (encode i) = some i.mnemonic := by
  cases i with
  | rdCtrl | rdWidth | rdHeight | rdThreshold | rdPrefix | rdIrqEn | rdCmd | rdStatus | rdErr | rdPos | rdCaps
  | cmdNop | cmdStart | cmdAbort | cmdClear | outPop => decide
  | wrCtrl | wrWidth | wrHeight | wrThreshold | wrPrefix | wrIrqEn | wrStatus | wrErr | wrPos | wrCaps =>
    simp only [encode, Instr.mnemonic]
    exact tableLookup_encodeWrite_of_row (by decide)
  | rdUnmapped o =>
    refine tableLookup_of_least (r := ⟨"RD_UNMAPPED", 0x000000000000#48, 0xFF00FFFFFFFF#48, 2⟩) (by decide)
      (matches_mkTd_iff.2 ⟨rfl, rfl, rfl, BitVec.and_zero, rfl⟩) fun _ hr hm => two_le_priority_of_not_mapped hr hm ?_
    simpa [encode, encodeRead] using h
  | wrUnmapped o v =>
    refine tableLookup_of_least (r := ⟨"WR_UNMAPPED", 0x200000000000#48, 0xFF0000000000#48, 2⟩) (by decide)
      (matches_mkTd_iff.2 ⟨rfl, rfl, rfl, BitVec.and_zero, BitVec.and_zero⟩) fun _ hr hm =>
      two_le_priority_of_not_mapped hr hm ?_
    simpa [encode, encodeWrite] using h
  | cmdReserved v =>
    refine tableLookup_of_least (r := ⟨"CMD_RESERVED", 0x201800000000#48, 0xFFFF00000000#48, 1⟩) (by decide)
      (matches_mkTd_iff.2 ⟨rfl, rfl, rfl, rfl, BitVec.and_zero⟩) fun _ hr hm =>
      one_le_priority_of_not_commandCode hr hm ?_ ?_
    · simp [encode, encodeWrite]
    · simpa [encode, encodeWrite] using h
  | pixPush smp =>
    have hdata : ∀ smp : Byte, smp.setWidth 32 &&& 0xFFFFFF00#32 = 0#32 := by decide
    exact tableLookup_of_least (r := ⟨"PIX_PUSH", 0x600000000000#48, 0xFFFFFFFFFF00#48, 0⟩) (by decide)
      (matches_mkTd_iff.2 ⟨rfl, rfl, rfl, rfl, hdata smp⟩) fun _ _ _ => Nat.zero_le _

/-- Every row fixes PORT, DIR and RSV, and those of its fields that R53's form of its TDs fixes. -/
theorem row_form : ∀ r ∈ opcodeRows,
    (tdPort r.mask = BitVec.allOnes 2 ∧ tdDir r.mask = BitVec.allOnes 1 ∧ tdRsv r.mask = BitVec.allOnes 5) ∧
    tdRsv r.value = 0#5 ∧
    (tdPort r.value = 0b00#2 ∧ tdDir r.value = 0#1 ∧ tdData r.mask = BitVec.allOnes 32 ∧ tdData r.value = 0#32 ∨
      tdPort r.value = 0b00#2 ∧ tdDir r.value = 1#1 ∨
      tdPort r.value = 0b01#2 ∧ tdDir r.value = 1#1 ∧ tdOffset r.mask = BitVec.allOnes 8 ∧ tdOffset r.value = 0#8 ∧
        (tdData r.mask).extractLsb' 8 24 = BitVec.allOnes 24 ∧ tdData r.value = 0#32 ∨
      tdPort r.value = 0b10#2 ∧ tdDir r.value = 0#1 ∧ tdOffset r.mask = BitVec.allOnes 8 ∧ tdOffset r.value = 0#8 ∧
        tdData r.mask = BitVec.allOnes 32 ∧ tdData r.value = 0#32) := by
  decide

/-- No row matches a reserved TD: by R53's form of the row's TDs, each case of R54 is excluded. -/
theorem not_reserved_of_matches (hr : r ∈ opcodeRows) (hm : r.Matches td = true) :
    ¬ ∃ why, decode td = .error why := by
  obtain ⟨⟨hpm, hdm, hrm⟩, hr0, hform⟩ := row_form r hr
  obtain ⟨hport, hdir, hrsv, hoff, hdata⟩ := matches_iff.1 hm
  rw [hpm, BitVec.and_allOnes] at hport
  rw [hdm, BitVec.and_allOnes] at hdir
  rw [hrm, BitVec.and_allOnes, hr0] at hrsv
  rw [decode_error_iff, hport, hdir, hrsv]
  rcases hform with ⟨hp, hd, hvm, hv⟩ | ⟨hp, hd⟩ | ⟨hp, hd, hom, ho, hvm, hv⟩ | ⟨hp, hd, hom, ho, hvm, hv⟩
  · rw [hvm, BitVec.and_allOnes, hv] at hdata
    simp [hp, hdata]
  · simp [hp, hd]
  · rw [hom, BitVec.and_allOnes, ho] at hoff
    have hhigh := congrArg (BitVec.extractLsb' 8 24) hdata
    rw [BitVec.extractLsb'_and, hvm, BitVec.and_allOnes, hv] at hhigh
    simp [hp, hd, hoff, hhigh]
  · rw [hom, BitVec.and_allOnes, ho] at hoff
    rw [hvm, BitVec.and_allOnes, hv] at hdata
    simp [hp, hd, hoff, hdata]

theorem tableLookup_eq_none {why : Reserved} (h : decode td = .error why) : tableLookup td = none := by
  have hnone : ∀ p, lookupAt p td = none := fun p =>
    lookupAt_eq_none fun r hr hm => absurd ⟨why, h⟩ (not_reserved_of_matches hr hm)
  simp [tableLookup, hnone]

end Table

/-- Settles O4: a TD that decodes is that of its transaction, where the lookup finds the name; a reserved one matches no
row. -/
theorem decoderAgreesWithOpcodeTable : Obligations.DecoderAgreesWithOpcodeTable := by
  refine ⟨rfl, fun td => ?_, fun r₁ h₁ r₂ h₂ hne hp td hm => hne (eq_of_matches h₁ h₂ hp hm.1 hm.2)⟩
  cases hdecode : decode td with
  | ok i =>
    obtain ⟨hwf, rfl⟩ := decodedTransactionEncodesBack td i hdecode
    exact tableLookup_encode hwf
  | error why => exact tableLookup_eq_none hdecode

end Sys2Proof.Machine

/-! PROOF. The bytes of the reference frame (30_encoding.md R58; 43_packer.md R110 to R113). -/

namespace Sys2Proof.Machine

section FrameBytes

variable (p : Word) (w h : Nat) (bitmap : List Byte)

theorem length_frameBytes : (frameBytes p w h bitmap).length = 8 + bitmap.length := by
  rw [frameBytes, List.length_append]
  rfl

theorem getD_frameBytes_lane {k : Nat} (hk : k < 4) : (frameBytes p w h bitmap).getD k 0#8 = p.extractLsb' (8 * k) 8 := by
  interval_cases k <;> rfl

theorem getD_frameBytes_bitmap (k : Nat) : (frameBytes p w h bitmap).getD (8 + k) 0#8 = bitmap.getD k 0#8 := by
  rw [frameBytes, List.getD_append_right _ _ _ _ (Nat.le_add_right 8 k)]
  simp

/-- LE16 loses nothing of a number below 65536 (20_memory.md R36). -/
theorem le16_toNat {n : Nat} (hn : n < 65536) :
    (BitVec.ofNat 8 (n % 256)).toNat + 256 * (BitVec.ofNat 8 (n / 256)).toNat = n := by
  simp only [BitVec.toNat_ofNat]
  omega

end FrameBytes

/-- Settles O49: the header by `frameBytes`, and a pixel by its byte in the bitmap and its bit in the byte. -/
theorem frameLayout : Obligations.FrameLayout := by
  intro s samples
  have hw := s.widthW.isLt
  refine ⟨?_, fun k hk => getD_frameBytes_lane _ _ _ _ hk, le16_toNat (by omega), le16_toNat s.heightH.isLt,
    fun y j b hy hj hb => ?_⟩
  · rw [frameFor, length_frameBytes, length_packedBitmap]
  · rw [Nat.add_assoc, frameFor, getD_frameBytes_bitmap, getD_packedBitmap _ hy hj, getLsbD_packedByte _ _ _ _ hb]

end Sys2Proof.Machine

/-! PROOF. The assembler lines (30_encoding.md R62) and the pseudo-instructions `frame` and `poll` (R63). -/

namespace Sys2Proof.Machine

open Sys2Proof.Claims Sys2Proof.Laws

/-! ### The transaction a line names -/

section NamedBy

variable {o : Byte} {v : Word} {n : RegName}

/-- The register at an offset stands there, and the offsets of R55 are the mapped ones. -/
theorem registerAt_offset : ∀ o : Byte, (registerAt o).map RegName.offset = if Mapped o then some o else none := by
  decide

theorem offset_of_registerAt_eq_some (h : registerAt o = some n) : n.offset = o := by
  have hoff := registerAt_offset o
  by_cases ho : Mapped o
  · simpa [h] using hoff.trans (if_pos ho)
  · simp [h, ho] at hoff

theorem not_mapped_of_registerAt_eq_none (h : registerAt o = none) : ¬ Mapped o := by
  intro ho
  simpa [h, ho] using registerAt_offset o

theorem decodeRead_of_not_mapped (h : ¬ Mapped o) : decodeRead o = .rdUnmapped o := by
  simpa [encode] using RoundTrip.rdUnmapped o h

theorem decodeWrite_of_not_mapped (h : ¬ Mapped o) : decodeWrite o v = .wrUnmapped o v := by
  simpa [encode] using RoundTrip.wrUnmapped o v h

theorem decodeCommand_of_not_commandCode (h : ¬ CommandCode v) : decodeCommand v = .cmdReserved v := by
  simpa [encode, decodeWrite] using RoundTrip.cmdReserved v h

theorem decodeRead_offset (n : RegName) : decodeRead n.offset = readOf n := by
  cases n <;> rfl

/-- A write to CMD is the command of its code, or reserved (R56). -/
theorem decodeCommand_eq_writeOf (v : Word) : decodeCommand v = writeOf .cmd v := by
  by_cases hv : CommandCode v
  · rcases (commandCode_iff v).1 hv with rfl | rfl | rfl | rfl <;> rfl
  · obtain ⟨k, hk⟩ : ∃ k, v.toNat = k + 4 := Nat.exists_eq_add_of_le' (not_le.1 hv)
    simp only [decodeCommand_of_not_commandCode hv, writeOf, hk]

theorem decodeWrite_offset (n : RegName) (v : Word) : decodeWrite n.offset v = writeOf n v := by
  cases n with
  | cmd => exact decodeCommand_eq_writeOf v
  | ctrl | width | height | threshold | prefixReg | irqEn | status | err | pos | caps => rfl

end NamedBy

/-- The transaction the model gives a line is the one the line names. -/
theorem instr_eq_namedBy (l : AsmLine) : l.instr = namedBy l := by
  cases l with
  | rd n => exact decodeRead_offset n
  | rdAt o =>
    simp only [AsmLine.instr, namedBy]
    cases h : registerAt o with
    | some n => exact offset_of_registerAt_eq_some h ▸ decodeRead_offset n
    | none => exact decodeRead_of_not_mapped (not_mapped_of_registerAt_eq_none h)
  | wr n v => exact decodeWrite_offset n v
  | wrAt o v =>
    simp only [AsmLine.instr, namedBy]
    cases h : registerAt o with
    | some n => exact offset_of_registerAt_eq_some h ▸ decodeWrite_offset n v
    | none => exact decodeWrite_of_not_mapped (not_mapped_of_registerAt_eq_none h)
  | push smp => rfl
  | pop => rfl

/-- The TD of a line decodes to the transaction the model gives the line. -/
theorem decode_td (l : AsmLine) : decode l.td = .ok l.instr := by
  cases l with
  | rd n => exact decode_encodeRead n.offset
  | rdAt o => exact decode_encodeRead o
  | wr n v => exact decode_encodeWrite n.offset v
  | wrAt o v => exact decode_encodeWrite o v
  | push smp => exact RoundTrip.pixPush smp trivial
  | pop => exact RoundTrip.outPop trivial

/-- Settles O53: the TD decodes to the line's transaction, which is the named one; what decodes is well-formed. -/
theorem assemblerLinesDecode : Obligations.AssemblerLinesDecode := by
  intro l
  have hdecode : decode l.td = .ok (namedBy l) := instr_eq_namedBy l ▸ decode_td l
  exact ⟨hdecode, (decodedTransactionEncodesBack _ _ hdecode).1, instr_eq_namedBy l⟩

/-! ### The text of a line -/

/-- The text of a line with nothing or a comment after it is read back: its mnemonic and each operand are tokens. -/
theorem readLine_text_append (l : AsmLine) {c : List Char} (hc : c = [] ∨ ∃ c', c = ';' :: c') :
    readLine (l.text ++ c) = some (some (.line l)) := by
  have hrd : IsToken ['r', 'd'] := by simp [IsToken]
  have hwr : IsToken ['w', 'r'] := by simp [IsToken]
  have hpush : IsToken ['p', 'u', 's', 'h'] := by simp [IsToken]
  have hpop : IsToken ['p', 'o', 'p'] := by simp [IsToken]
  cases l with
  | rd n =>
    refine (readLine_one hrd (isToken_text n) hc).trans ?_
    simp [readStatement, readTarget, ofText_text, readAccess]
  | rdAt o =>
    refine (readLine_one hrd (isToken_writeByte o) hc).trans ?_
    simp [readStatement, readTarget, ofText_writeByte, readByte_writeByte, readAccess]
  | wr n v =>
    have hread : readStatement ['w', 'r'] [n.text, writeWord v] = some (.line (.wr n v)) := by
      simp [readStatement, readTarget, ofText_text, readWord_writeWord, writeAccess]
    simpa [AsmLine.text, hread] using readLine_two hwr (isToken_text n) (isToken_writeWord v) hc
  | wrAt o v =>
    have hread : readStatement ['w', 'r'] [writeByte o, writeWord v] = some (.line (.wrAt o v)) := by
      simp [readStatement, readTarget, ofText_writeByte, readByte_writeByte, readWord_writeWord, writeAccess]
    simpa [AsmLine.text, hread] using readLine_two hwr (isToken_writeByte o) (isToken_writeWord v) hc
  | push smp =>
    refine (readLine_one hpush (isToken_writeByte smp) hc).trans ?_
    simp [readStatement, readByte_writeByte]
  | pop => exact readLine_eq hpop (.inl rfl) (by simp) (by simp) hc

/-- Settles O54: `readLine_text_append` with nothing and with the comment. -/
theorem assemblerTextReadsBack : Obligations.AssemblerTextReadsBack := by
  intro l comment
  exact ⟨by simpa using readLine_text_append l (.inl rfl), readLine_text_append l (.inr ⟨comment, rfl⟩)⟩

/-! ### `frame W, H, T, D` -/

section LegalWrites

variable {s : State} {v : Word}

theorem exec_wrCtrl_legal (h : v.toNat ≤ 1) :
    exec (.wrCtrl v) s = .next (({ s with ctrlDither := v.getLsbD 0 }).answer none) := by
  simp [exec, execWrCtrl, State.writeIf, ctrlLegal_eq, h]

theorem exec_wrWidth_legal (h : v.toNat ≤ 65535) :
    exec (.wrWidth v) s = .next (({ s with widthW := v.setWidth 16 }).answer none) := by
  simp [exec, execWrWidth, State.writeIf, halfLegal_eq, h]

theorem exec_wrHeight_legal (h : v.toNat ≤ 65535) :
    exec (.wrHeight v) s = .next (({ s with heightH := v.setWidth 16 }).answer none) := by
  simp [exec, execWrHeight, State.writeIf, halfLegal_eq, h]

theorem exec_wrThreshold_legal (h : v.toNat ≤ 255) :
    exec (.wrThreshold v) s = .next (({ s with thresholdT := v.setWidth 8 }).answer none) := by
  simp [exec, execWrThreshold, State.writeIf, byteLegal_eq, h]

end LegalWrites

/-- The state with assembler lines as what the host issues next (log 3). -/
def State.offer (s : State) (ls : List AsmLine) : State := { s with events := programEvents ls }

section Run

variable {s t : State}

theorem run_succ (h : step s = .next t) (k : Nat) : Sys2Proof.core.run (k + 1) s = Sys2Proof.core.run k t := by
  have hcore : Sys2Proof.core.step s = .next t := h
  simp only [Host.Core.run, hcore]

/-- A run of lines takes the first by its transaction's meaning. -/
theorem run_offer_cons {l : AsmLine} {ls : List AsmLine} (h : exec l.instr (s.offer ls) = .next t) (k : Nat) :
    Sys2Proof.core.run (k + 1) (s.offer (l :: ls)) = Sys2Proof.core.run k t :=
  run_succ ((step_of_decode_ok (s := s.offer (l :: ls)) rfl (decode_td l)).trans h) k

/-- `setup` with legal values writes its four registers (R63). -/
theorem run_setup {w h t d : Word} (hw : w.toNat ≤ 65535) (hh : h.toNat ≤ 65535) (ht : t.toNat ≤ 255)
    (hd : d.toNat ≤ 1) (s : State) (ls : List AsmLine) (k : Nat) :
    Sys2Proof.core.run (k + 4) (s.offer (expandSetup w h t d ++ ls)) =
      Sys2Proof.core.run k (((s.withRegs (d.getLsbD 0) (w.setWidth 16) (h.setWidth 16) (t.setWidth 8) s.prefixWord
        s.doneEn s.errEn).answer none).offer ls) := by
  let s₁ := ({ s with widthW := w.setWidth 16 }).answer none
  let s₂ := ({ s₁ with heightH := h.setWidth 16 }).answer none
  let s₃ := ({ s₂ with thresholdT := t.setWidth 8 }).answer none
  calc Sys2Proof.core.run (k + 4) (s.offer (expandSetup w h t d ++ ls))
    _ = Sys2Proof.core.run (k + 3) (s₁.offer (.wr .height h :: .wr .threshold t :: .wr .ctrl d :: ls)) :=
      run_offer_cons (l := .wr .width w) (exec_wrWidth_legal hw) _
    _ = Sys2Proof.core.run (k + 2) (s₂.offer (.wr .threshold t :: .wr .ctrl d :: ls)) :=
      run_offer_cons (s := s₁) (l := .wr .height h) (exec_wrHeight_legal hh) _
    _ = Sys2Proof.core.run (k + 1) (s₃.offer (.wr .ctrl d :: ls)) :=
      run_offer_cons (s := s₂) (l := .wr .threshold t) (exec_wrThreshold_legal ht) _
    _ = _ := run_offer_cons (s := s₃) (l := .wr .ctrl d) (exec_wrCtrl_legal hd) _

/-- START is performed when no frame is active and the programmed size is in R90's ranges. -/
theorem startAccepted_of_size (ha : ¬ Active s) (hw : 1 ≤ s.widthW.toNat) (hmax : s.widthW.toNat ≤ s.params.maxWidth)
    (hh : 1 ≤ s.heightH.toNat) : s.startAccepted = true := by
  refine startAccepted_iff_not_active_not_badSize.2 ⟨ha, ?_⟩
  simp only [BadSize]
  omega

end Run

/-- Settles O55: four steps of `run_setup`, which leave every value as it was given, and the START, which is performed. -/
theorem framePseudoStartsFrame : Obligations.FramePseudoStartsFrame := by
  intro s w h t d hactive hw1 hmax hh1 hh2 ht hd
  have hw2 := hmax.trans s.params.maxWidth_le
  have hw : (w.setWidth 16).toNat = w.toNat := by simpa using Nat.lt_succ_of_le hw2
  have hh : (h.setWidth 16).toNat = h.toNat := by simpa using Nat.lt_succ_of_le hh2
  have ht8 : (t.setWidth 8).toNat = t.toNat := by simpa using Nat.lt_succ_of_le ht
  have haccepted : (((s.withRegs (d.getLsbD 0) (w.setWidth 16) (h.setWidth 16) (t.setWidth 8) s.prefixWord s.doneEn
      s.errEn).answer none).offer []).startAccepted = true :=
    startAccepted_of_size hactive (hw.symm ▸ hw1) (hw.symm ▸ hmax) (hh.symm ▸ hh1)
  have hstart := run_offer_cons (l := .wr .cmd CommandName.start.code) (exec_cmdStart_accepted haccepted) 0
  exact ⟨_, (run_setup hw2 hh2 ht hd s _ 1).trans hstart, rfl, hw, hh, ht8, getLsbD_zero_toNat hd, rfl, rfl⟩

/-! ### `poll` -/

theorem mappedRead_readOf (n : RegName) : MappedRead (readOf n) := by
  cases n <;> simp [readOf, MappedRead]

/-- A mapped read does not read the last return value, so it returns the same again. -/
theorem exec_mappedRead_again {i : Instr} (hi : MappedRead i) {s : State} {v : Word}
    (h : exec i s = .next { s with ret := some v }) :
    exec i { s with ret := some v } = .next { s with ret := some v } := by
  rcases hi with rfl | rfl | rfl | rfl | rfl | rfl | rfl | rfl | rfl | rfl | rfl
  all_goals exact h

/-- A poll ends at its first read, or no read of it ends it. -/
theorem poll_eq {n : RegName} {s : State} {v : Word} (h : exec (readOf n) s = .next { s with ret := some v })
    (mask value : Word) (tries : Nat) : poll n mask value tries s =
      if 0 < tries ∧ v &&& mask = value then some { s with ret := some v } else none := by
  induction tries generalizing s with
  | zero => simp [poll]
  | succ tries ih =>
    rw [poll, decodeRead_offset, h]
    by_cases hv : v &&& mask = value
    · simp [hv]
    · simp [hv, ih (exec_mappedRead_again (mappedRead_readOf n) h)]

/-- Settles O56: the read of a mapped register answers a value and changes nothing else, and so does each after it. -/
theorem pollOnlyReads : Obligations.PollOnlyReads := by
  intro n mask value s
  obtain ⟨v, h⟩ := exec_mappedRead (mappedRead_readOf n) s
  exact ⟨v, h, poll_eq h mask value⟩

end Sys2Proof.Machine

/-! PROOF. What the register accesses return, store and leave unchanged: the statements of 40_register_access.md. -/

namespace Sys2Proof.Machine

open Sys2Proof.Claims

/-! ### Every register transaction is taken (R64) -/

section RegisterPort

variable {s t : State} {i : Instr}

/-- The 28 transactions of the register port answer a next state in every state. -/
theorem exec_next_of_onRegisterPort (hi : Instr.OnRegisterPort i) (s : State) : ∃ t, exec i s = .next t := by
  obtain ⟨hpop, hpush⟩ := hi
  cases i with
  | pixPush smp => exact absurd rfl (hpush smp)
  | outPop => exact absurd rfl hpop
  | rdCtrl | rdWidth | rdHeight | rdThreshold | rdPrefix | rdIrqEn | rdCmd | rdStatus | rdErr | rdPos | rdCaps
  | rdUnmapped | wrCtrl | wrWidth | wrHeight | wrThreshold | wrPrefix | wrIrqEn | wrStatus | wrErr | wrPos | wrCaps
  | wrUnmapped | cmdNop | cmdStart | cmdAbort | cmdClear | cmdReserved => exact ⟨_, rfl⟩

/-- A register access that is no command leaves STATE and the frame in progress. -/
theorem exec_frame_of_not_isCommand (hi : Instr.OnRegisterPort i) (hcmd : ¬ IsCommand i) (h : exec i s = .next t) :
    t.seq = s.seq ∧ frameState t = frameState s := by
  cases exec_next_cases h with
  | quiet | raised | written => exact ⟨rfl, rfl⟩
  | started | aborted | cleared => simp [IsCommand] at hcmd
  | pushed smp => exact absurd rfl (hi.2 smp)
  | popped => exact absurd rfl hi.1

end RegisterPort

/-- Settles O33: each transaction of the port is taken, and no effect of one that is no command reaches the frame. -/
theorem registerTransactionsTakenAtOnce : Obligations.RegisterTransactionsTakenAtOnce := by
  intro i s hpop hpush
  obtain ⟨t, hexec⟩ := exec_next_of_onRegisterPort ⟨hpop, hpush⟩ s
  exact ⟨t, hexec, fun hcmd => exec_frame_of_not_isCommand ⟨hpop, hpush⟩ hcmd hexec⟩

/-! ### STATUS (R72, R84) -/

theorem outValid_iff {s : State} : s.outValid = true ↔ 0 < s.outFifo.length := decide_eq_true_iff

theorem irq_iff {s : State} :
    s.irq = true ↔ (s.doneEn = true ∧ s.seq = .done) ∨ (s.errEn = true ∧ s.err ≠ 0#5) := by
  simp [State.irq]

/-- The STATUS word by its fields, when the FIFO count fits (R23). -/
theorem statusWord_toNat_of_fifoFits {s : State} (h : s.outFifo.length ≤ s.params.ofifoDepth) :
    s.statusWord.toNat = s.seq.code.toNat +
      (if s.seq = .run ∧ s.outFifo.length < s.params.ofifoDepth then 8 else 0) +
      (if 0 < s.outFifo.length then 16 else 0) +
      (if (s.doneEn = true ∧ s.seq = .done) ∨ (s.errEn = true ∧ s.err ≠ 0#5) then 32 else 0) +
      256 * s.outFifo.length := by
  have hdepth := s.params.ofifoDepth_le
  rw [statusWord_toNat, Nat.mod_eq_of_lt (by omega)]
  simp only [bit_toNat, inReady_iff, outValid_iff, irq_iff, ite_mul, one_mul, zero_mul]
  ring

/-- Settles O12: the word of `statusWord_toNat_of_fifoFits`, with the codes of R27 written out. -/
theorem statusRead : Obligations.StatusRead := by
  refine ⟨rfl, fun s hfit => ⟨s.statusWord, rfl, (statusWord_toNat_of_fifoFits hfit).trans ?_⟩⟩
  congr 4
  cases s.seq <;> rfl

/-- A bit below other bits is bit 0 of the whole. -/
theorem getLsbD_append_bit {n : Nat} (x : BitVec n) (b : Bool) (k : Nat) :
    (x ++ bit b).getLsbD k = if k = 0 then b else x.getLsbD (k - 1) := by
  rw [BitVec.getLsbD_append]
  by_cases hk : k = 0
  · cases b <;> simp [hk, bit]
  · rw [if_neg (by omega), if_neg hk]

/-- The bits of STATUS: IN_READY, OUT_VALID and IRQ between the code of STATE and the FIFO count (R23). -/
theorem getLsbD_statusWord (s : State) (k : Nat) : s.statusWord.getLsbD k =
    if k < 3 then s.seq.code.getLsbD k else if k = 3 then s.inReady else if k = 4 then s.outValid
    else if k = 5 then s.irq else (0#16 ++ BitVec.ofNat 8 s.outFifo.length ++ 0b00#2).getLsbD (k - 6) := by
  rw [State.statusWord, BitVec.getLsbD_append, getLsbD_append_bit, getLsbD_append_bit, getLsbD_append_bit]
  by_cases hk : k < 3
  · rw [if_pos hk, if_pos hk]
  · obtain ⟨j, rfl⟩ := Nat.exists_eq_add_of_le' (not_lt.1 hk)
    rw [if_neg hk, if_neg hk]
    rcases j with _ | _ | _ | j <;> rfl

theorem getLsbD_statusWord_five (s : State) : s.statusWord.getLsbD 5 = s.irq := getLsbD_statusWord s 5

/-- A rejected write leaves every bit of STATUS but IRQ. -/
theorem getLsbD_statusWord_rejectWrite (s : State) {k : Nat} (hk : k ≠ 5) :
    s.rejectWrite.statusWord.getLsbD k = s.statusWord.getLsbD k := by
  rw [getLsbD_statusWord, getLsbD_statusWord, if_neg hk, if_neg hk]
  rfl

/-- A raise leaves an error recorded (R120). -/
theorem raise_err_ne_zero (s : State) (e : ErrCause) : (s.raise e).err ≠ 0#5 := by
  have hmask : e.mask ≠ 0#5 := by cases e <;> decide
  rw [State.raise_err, Ne, BitVec.or_eq_zero_iff]
  exact fun h => hmask h.2

/-- After a rejected write an error is recorded, so that ERR_EN alone decides its share of IRQ (R125). -/
theorem irq_rejectWrite (s : State) : s.rejectWrite.irq = (s.doneEn && s.seq == .done || s.errEn) := by
  have herr : (s.rejectWrite.err != 0#5) = true := bne_iff_ne.2 (raise_err_ne_zero s .badWrite)
  rw [State.irq, herr, Bool.and_true]
  rfl

/-- Settles O57: the write is rejected, which leaves every bit but IRQ, and with ERR_EN = 0 no error reaches IRQ. -/
theorem writeStatusLeavesStatus : Obligations.WriteStatusLeavesStatus := by
  intro v s
  refine ⟨s.rejectWrite, s.statusWord, s.rejectWrite.statusWord, rfl, rfl, rfl,
    fun k hk => getLsbD_statusWord_rejectWrite s hk, fun hen => ?_, fun hen => ?_⟩
  · refine BitVec.eq_of_getLsbD_eq fun k _ => ?_
    by_cases hk : k = 5
    · rw [hk, getLsbD_statusWord_five, getLsbD_statusWord_five, irq_rejectWrite, State.irq, hen, Bool.false_and]
    · exact getLsbD_statusWord_rejectWrite s hk
  · rw [getLsbD_statusWord_five, irq_rejectWrite, hen, Bool.or_true]

/-! ### The TDs of register accesses (R53, R55) -/

/-- The TD of a read, as bytes. -/
theorem decode_readTd (o : Byte) : decode (0x00#8 ++ o ++ 0#32) = .ok (decodeRead o) := decode_encodeRead o

/-- The TD of a write, as bytes and the data. -/
theorem decode_writeTd (o : Byte) (v : Word) : decode (0x20#8 ++ o ++ v) = .ok (decodeWrite o v) :=
  decode_encodeWrite o v

theorem mapped_iff_toNat (o : Byte) : Mapped o ↔ o.toNat % 4 = 0 ∧ o.toNat ≤ 0x28 := by
  simp [Mapped, ← BitVec.toNat_inj, BitVec.extractLsb'_toNat]

/-! ### Reads (R65 to R71, R73 to R76) -/

theorem setWidth_bit (b : Bool) : (bit b).setWidth 32 = BitVec.ofNat 32 b.toNat := by
  cases b <;> rfl

/-- The IRQ_EN word as a number (R70). -/
theorem irqEnWord_eq (s : State) : s.irqEnWord = BitVec.ofNat 32 (2 * s.errEn.toNat + s.doneEn.toNat) := by
  rw [State.irqEnWord]
  cases s.errEn <;> cases s.doneEn <;> rfl

/-- A read whose meaning is a word answers that word under any other name of it, and changes nothing else. -/
theorem exec_read_of_eq {i : Instr} {s : State} {a b : Word} (h : exec i s = .next (s.answer (some a))) (hab : a = b) :
    exec i s = .next { s with ret := some b } := hab ▸ h

/-- Settles O10: each read answers its register's word, by the number it is. -/
theorem configRegisterReads : Obligations.ConfigRegisterReads := by
  refine ⟨rfl, rfl, rfl, rfl, rfl, rfl, fun s => ⟨?ctrl, ?width, ?height, ?threshold, rfl, ?irqEn⟩⟩
  case ctrl => exact exec_read_of_eq rfl (setWidth_bit s.ctrlDither)
  case width => exact exec_read_of_eq rfl (BitVec.ofNat_toNat 32 s.widthW).symm
  case height => exact exec_read_of_eq rfl (BitVec.ofNat_toNat 32 s.heightH).symm
  case threshold => exact exec_read_of_eq rfl (BitVec.ofNat_toNat 32 s.thresholdT).symm
  case irqEn => exact exec_read_of_eq rfl (irqEnWord_eq s)

/-- The position after the last sample is LH above 0 (10_state.md R29). -/
theorem posWord_of_finished {s : State} (h : s.Inv) (hs : s.seq = .drain ∨ s.seq = .done) :
    s.posWord = BitVec.ofNat 32 (s.lh.toNat * 65536) := by
  obtain ⟨hx, hy⟩ := h.finished hs
  simp [posWord_eq, hx, hy]

/-- Settles O11: each read answers its word, by the number it is; a finished frame's POS by the invariant. -/
theorem cmdErrPosCapsReads : Obligations.CmdErrPosCapsReads := by
  refine ⟨rfl, rfl, rfl, rfl, fun s => ⟨rfl, ?err, ?pos, ?caps, fun hinv hseq => ?posFinished⟩⟩
  case err => exact exec_read_of_eq rfl (BitVec.ofNat_toNat 32 s.err).symm
  case pos => exact exec_read_of_eq rfl (posWord_eq s)
  case caps => exact exec_read_of_eq rfl (capsWord_eq s)
  case posFinished => exact exec_read_of_eq rfl (posWord_of_finished hinv hseq)

/-- Settles O13: an offset that is not mapped decodes to the unmapped access, which raises BADADDR and nothing else. -/
theorem unmappedAccesses : Obligations.UnmappedAccesses := by
  refine ⟨fun o ho => ?_, fun o v s => ⟨rfl, rfl⟩⟩
  have hunmapped : ¬ Mapped o := fun h => ho ((mapped_iff_toNat o).1 h)
  refine ⟨?_, fun v => ?_⟩
  · rw [decode_readTd, decodeRead_of_not_mapped hunmapped]
  · rw [decode_writeTd, decodeWrite_of_not_mapped hunmapped]

/-! ### Writes (R77 to R87) -/

theorem rejectWrite_eq (s : State) : s.rejectWrite = { s with err := s.err ||| 0b00010#5, ret := none } := rfl

/-- A register write by the range of its legal values: in it the register holds the value, outside it the write is
rejected whole (R77). -/
theorem exec_eq_ite_of_writeIf {i : Instr} {s u t : State} {legal : Bool} {p : Prop} [Decidable p]
    (hexec : exec i s = .next (s.writeIf legal u)) (hlegal : legal = decide p) (hstore : p → u.answer none = t) :
    exec i s = .next (if p then t else { s with err := s.err ||| 0b00010#5, ret := none }) := by
  rw [hexec, hlegal]
  by_cases hp : p
  · rw [if_pos hp, ← hstore hp, State.writeIf, if_pos (decide_eq_true hp)]
  · rw [if_neg hp, ← rejectWrite_eq, State.writeIf, if_neg (by simpa using hp), State.rejectWrite]

theorem getLsbD_zero_eq_decide (v : Word) : v.getLsbD 0 = decide (v.toNat % 2 = 1) := by
  rw [BitVec.getLsbD, Nat.testBit_zero]

/-- Bit 0 of a number below 2 says whether it is 1. -/
theorem getLsbD_zero_eq_decide_of_le_one {v : Word} (h : v.toNat ≤ 1) : v.getLsbD 0 = decide (v.toNat = 1) := by
  rw [getLsbD_zero_eq_decide, Nat.mod_eq_of_lt (by omega)]

/-- Bit 1 of a number below 4 says whether it is at least 2. -/
theorem getLsbD_one_eq_decide_of_le_three {v : Word} (h : v.toNat ≤ 3) : v.getLsbD 1 = decide (2 ≤ v.toNat) := by
  rw [BitVec.getLsbD, Nat.testBit_eq_decide_div_mod_eq, decide_eq_decide]
  omega

/-- Settles O14: `exec_eq_ite_of_writeIf` with each register's legal range and the fields of a legal value. -/
theorem rwRegisterWrites : Obligations.RwRegisterWrites := by
  intro v s
  refine ⟨decode_writeTd 0x00#8 v, decode_writeTd 0x04#8 v, decode_writeTd 0x08#8 v, decode_writeTd 0x0C#8 v,
    decode_writeTd 0x10#8 v, decode_writeTd 0x14#8 v, ?ctrl, ?width, ?height, ?threshold, rfl, ?irqEn⟩
  case ctrl =>
    refine exec_eq_ite_of_writeIf rfl (ctrlLegal_eq v) fun hv => ?_
    rw [getLsbD_zero_eq_decide_of_le_one hv, State.answer]
  case width => exact exec_eq_ite_of_writeIf rfl (halfLegal_eq v) fun _ => by rw [BitVec.ofNat_toNat, State.answer]
  case height => exact exec_eq_ite_of_writeIf rfl (halfLegal_eq v) fun _ => by rw [BitVec.ofNat_toNat, State.answer]
  case threshold => exact exec_eq_ite_of_writeIf rfl (byteLegal_eq v) fun _ => by rw [BitVec.ofNat_toNat, State.answer]
  case irqEn =>
    refine exec_eq_ite_of_writeIf rfl (irqEnLegal_eq v) fun hv => ?_
    rw [getLsbD_zero_eq_decide, getLsbD_one_eq_decide_of_le_three hv, State.answer]

/-- Settles O15: each of the four writes is a rejected write, whatever its value. -/
theorem readOnlyRegisterWrites : Obligations.ReadOnlyRegisterWrites := by
  intro v s
  exact ⟨decode_writeTd 0x1C#8 v, decode_writeTd 0x20#8 v, decode_writeTd 0x24#8 v, decode_writeTd 0x28#8 v,
    rfl, rfl, rfl, rfl⟩

end Sys2Proof.Machine

/-! PROOF. What each command does and leaves unchanged: the statements of 41_commands.md. -/

namespace Sys2Proof.Machine

open Sys2Proof.Claims Sys2Proof.Laws

/-- Settles O16: NOP's meaning only answers, and it returns nothing. -/
theorem nopChangesNothing : Obligations.NopChangesNothing :=
  ⟨rfl, fun _ => rfl⟩

/-! ### START and ABORT by the state they find (R90 to R92) -/

section FrameCommands

variable {s : State}

/-- The second precondition that `execCmdStart` checks is R90's. -/
theorem startParamsBad_iff : s.startParamsBad = true ↔ BadSize s := by
  simp only [State.startParamsBad, BadSize, Bool.or_eq_true, beq_iff_eq, decide_eq_true_iff, ← BitVec.toNat_inj,
    BitVec.toNat_ofNat, Nat.zero_mod]
  tauto

/-- A START in an active frame, whatever the size (R90). -/
theorem exec_cmdStart_of_active (h : Active s) : exec .cmdStart s = .next ((s.raise .busy).answer none) := by
  rw [exec, execCmdStart, if_pos (frameActive_iff.2 h)]

/-- A START of a frame of a bad size, with no frame active (R90). -/
theorem exec_cmdStart_of_badSize (ha : ¬ Active s) (h : BadSize s) :
    exec .cmdStart s = .next ((s.raise .param).answer none) := by
  rw [exec, execCmdStart, if_neg (mt frameActive_iff.1 ha), if_pos (startParamsBad_iff.2 h)]

theorem exec_cmdAbort_of_active (h : Active s) : exec .cmdAbort s = .next (s.abandonFrame.answer none) := by
  rw [exec, execCmdAbort, if_pos (frameActive_iff.2 h)]

theorem exec_cmdAbort_of_not_active (h : ¬ Active s) : exec .cmdAbort s = .next (s.answer none) := by
  rw [exec, execCmdAbort, if_neg (mt frameActive_iff.1 h)]

end FrameCommands

/-- Settles O17: each refusal raises its cause and nothing else, and a performed START is `startFrame`, whose line buffers
list no entry. -/
theorem startCommand : Obligations.StartCommand := by
  refine ⟨rfl, fun s => ⟨fun hactive => ?busy, fun hactive hsize => ?param, fun hactive hsize => ?performed⟩⟩
  case busy => exact exec_cmdStart_of_active hactive
  case param => exact exec_cmdStart_of_badSize hactive hsize
  case performed =>
    have haccepted : s.startAccepted = true := startAccepted_iff_not_active_not_badSize.2 ⟨hactive, hsize⟩
    exact ⟨s.startFrame.answer none, exec_cmdStart_accepted haccepted, fun i => ⟨lineGet_nil i, lineGet_nil i⟩, rfl⟩

/-- Settles O18: an active frame is abandoned, and without one ABORT only answers. -/
theorem abortCommand : Obligations.AbortCommand :=
  ⟨rfl, fun _ => ⟨exec_cmdAbort_of_active, exec_cmdAbort_of_not_active⟩⟩

/-! ### CLEAR (R93) -/

theorem exec_cmdClear (s : State) :
    exec .cmdClear s = .next { s with err := 0#5, seq := s.seq.afterClear, ret := none } := rfl

theorem afterClear_eq_self {q : SeqState} (h : ¬ (q = .done ∨ q = .aborted)) : q.afterClear = q :=
  not_not.1 (mt (afterClear_ne_iff q).1 h)

/-- Settles O19: CLEAR empties ERR in every state, and only an ended frame's STATE is not its own `afterClear`. -/
theorem clearCommand : Obligations.ClearCommand := by
  refine ⟨rfl, fun s => ⟨fun hended => ?ended, fun hother => ?other⟩⟩
  case ended => rw [exec_cmdClear, afterClear_eq_idle hended]
  case other => rw [exec_cmdClear, afterClear_eq_self hother]

/-! ### Reserved values of CMD (R56, R94) -/

/-- Settles O20: a value that is none of R56's codes decodes to the reserved command, which raises BADCMD and nothing
else. -/
theorem reservedCommand : Obligations.ReservedCommand := by
  refine ⟨fun v h0 h1 h2 h3 => ?_, fun _ _ => rfl⟩
  have hreserved : ¬ CommandCode v := by simp [commandCode_iff, h0, h1, h2, h3]
  exact RoundTrip.cmdReserved v hreserved

end Sys2Proof.Machine

/-! PROOF. The pixel push, the quantizer and the diffusion: the statements of 42_quantizer_dither.md. -/

namespace Sys2Proof.Machine

open Sys2Proof.Claims Sys2Proof.Laws

/-! ### The bytes of a completed frame (R107) -/

/-- The reference frame is the header START puts into OF, and then the bitmap (R58, R116). -/
theorem frameFor_eq (s : State) (samples : List Byte) :
    frameFor s samples = headerBytes s.prefixWord s.widthW.toNat s.heightH.toNat ++
      packedBitmap s.widthW.toNat s.heightH.toNat
        (blackAt s.widthW.toNat (classify s.widthW.toNat s.thresholdT.toNat s.ctrlDither samples)) := rfl

/-- The reference frame reads DITHER, W, H, T and PREFIX of the state, and nothing else (R107). -/
theorem frameFor_congr {s₁ s₂ : State} (hd : s₁.ctrlDither = s₂.ctrlDither) (hw : s₁.widthW = s₂.widthW)
    (hh : s₁.heightH = s₂.heightH) (ht : s₁.thresholdT = s₂.thresholdT) (hp : s₁.prefixWord = s₂.prefixWord)
    (samples : List Byte) : frameFor s₁ samples = frameFor s₂ samples := by
  simp only [frameFor, hd, hw, hh, ht, hp]

/-- A run from a performed START to DONE has pushed W · H samples and delivered the reference frame for them: the
relation `Sim` holds at its end, where OF is empty (44_frame_output.md R118). -/
theorem activeRun_done {s t u : State} {is : List Instr} {bs : List Byte} (hstart : s.startAccepted = true)
    (hexec : exec .cmdStart s = .next t) (hrun : activeRun is t = some (bs, u)) (hdone : u.seq = .done) :
    (pushedSamples is).length = s.widthW.toNat * s.heightH.toNat ∧ bs = frameFor s (pushedSamples is) := by
  rw [exec_cmdStart_accepted hstart] at hexec
  cases hexec
  have hsim := (sim_start hstart _).activeRun hrun (by simp [hdone]) List.prefix_rfl
  have hnotRun : u.seq ≠ .run := by simp [hdone]
  have hfifo : u.outFifo = [] := hsim.inv.quietFifo (by simp [State.frameActive, hdone])
  refine ⟨hsim.countAll hnotRun, ?_⟩
  simpa [hfifo, frameFor_eq] using hsim.outAll hnotRun

/-- Settles O48: each run delivers the reference frame of its START, and the two reference frames are equal. -/
theorem frameBytesIndependentOfInterleaving : Obligations.FrameBytesIndependentOfInterleaving := by
  intro s₁ s₂ t₁ t₂ u₁ u₂ is₁ is₂ bs₁ bs₂ hstart₁ hstart₂ hd hw hh ht hp hexec₁ hexec₂ hrun₁ hrun₂ hdone₁ hdone₂
    hsamples
  calc
    bs₁ = frameFor s₁ (pushedSamples is₁) := (activeRun_done hstart₁ hexec₁ hrun₁ hdone₁).2
    _ = frameFor s₂ (pushedSamples is₂) := by rw [hsamples, frameFor_congr hd hw hh ht hp]
    _ = bs₂ := (activeRun_done hstart₂ hexec₂ hrun₂ hdone₂).2.symm

/-! ### When a push is taken, and what it keeps (R96) -/

/-- A push while IN_READY = 0 is not taken (R96, 60_exceptions.md R124). -/
theorem exec_pixPush_of_not_ready {s : State} (smp : Byte) (h : ¬ Ready s) :
    exec (.pixPush smp) s = .fault .pushWaits := by
  rw [exec, execPixPush, if_neg (mt inReady_iff.1 h)]

/-- The TD of a push, as the 40 bits above the sample and the sample (30_encoding.md R53). -/
theorem pushTd_eq_encode (smp : Byte) : 0x6000000000#40 ++ smp = encode (.pixPush smp) := by
  apply BitVec.eq_of_toNat_eq
  rw [encode, mkTd_toNat, toNat_append_eq]
  simp
  omega

/-- Settles O21: the meaning of a push branches on `inReady`, which is R33's condition. -/
theorem pushTakenExactlyWhenReady : Obligations.PushTakenExactlyWhenReady := by
  refine ⟨fun smp => ?td, fun s smp => ⟨fun hready => ?taken, exec_pixPush_of_not_ready smp⟩⟩
  case td => rw [pushTd_eq_encode, RoundTrip.pixPush smp trivial]
  case taken => exact ⟨_, exec_pixPush_ready smp (inReady_iff.2 hready)⟩

/-- A push that answers a next state accepted the sample. -/
theorem eq_acceptSample_of_exec_pixPush {s t : State} {smp : Byte} (h : exec (.pixPush smp) s = .next t) :
    t = (s.acceptSample smp).answer none := by
  cases exec_next_cases h with
  | quiet _ hi | raised _ hi | written _ hi => exact absurd rfl (hi.2 smp)
  | pushed => rfl

/-- Settles O24: `acceptSample` keeps every field that the statement does not name. -/
theorem pushFrame : Obligations.PushFrame := by
  intro s t smp hexec
  rw [eq_acceptSample_of_exec_pixPush hexec]
  simp [State.answer]

/-! ### The statements' corrected value and error are the machine's (R98 to R101) -/

theorem corrected_eq_correctedValue (s : State) (smp : Byte) : s.corrected smp = correctedValue s smp := by
  unfold State.corrected correctedValue sampleValue
  cases s.ld <;> simp

/-- A pixel is black exactly when its corrected value is below LT, under both policies (R99, R100). -/
theorem black_eq_decide (s : State) (smp : Byte) :
    s.black smp = decide (correctedValue s smp < (s.lt.toNat : Int)) := by
  rw [State.black, corrected_eq_correctedValue]
  cases hd : s.ld with
  | true => rfl
  | false => simp [correctedValue, sampleValue, hd]

theorem pushError_eq_passedError (s : State) (smp : Byte) : s.pushError smp = passedError s smp := by
  simp [State.pushError, passedError, quantError, black_eq_decide, corrected_eq_correctedValue]

/-- Settles O22: the byte b is SR with the pixel's bit written, which SR keeps or OF takes. -/
theorem pushPacksPixel : Obligations.PushPacksPixel := by
  intro s smp hready
  refine ⟨(s.acceptSample smp).answer none, putBit s.sr (7 - s.x.toNat % 8) (s.black smp),
    exec_pixPush_ready smp (inReady_iff.2 hready), fun k _ => ?bit, ?byte⟩
  case bit => rw [getLsbD_putBit _ (by omega), black_eq_decide]
  case byte =>
    rw [State.answer_outFifo, State.answer_sr, acceptSample_outFifo, acceptSample_sr]
    by_cases hend : s.ByteEnd
    · simp only [if_pos hend, and_self]
    · simp only [if_neg hend, List.append_nil, and_self]

/-! ### What a push does to the line buffers and the position (R103 to R106) -/

section Distribute

variable {s : State} (h : s.Inv) (hrun : s.seq = .run) (smp : Byte) (i : Nat)
include h hrun

theorem diffuse_cur_eq_curAfter :
    (lineGet (s.diffuse smp).cur i).toInt = curAfter s (passedError s smp) i := by
  rw [diffuse_cur_toInt h hrun, pushError_eq_passedError, curAfter]

theorem diffuse_nxt_eq_nxtAfter :
    (lineGet (s.diffuse smp).nxt i).toInt = nxtAfter s (passedError s smp) i := by
  rw [diffuse_nxt_toInt h hrun, pushError_eq_passedError, nxtAfter]

end Distribute

/-- A coordinate below a 16-bit bound advances by one without wrapping (log 9). -/
theorem toNat_ofNat_succ {n : Nat} {bound : Half} (h : n < bound.toNat) : (BitVec.ofNat 16 (n + 1)).toNat = n + 1 := by
  have hbound := bound.isLt
  rw [BitVec.toNat_ofNat, Nat.mod_eq_of_lt (by omega)]

/-- Settles O23: the fields `acceptSample` leaves at a row end and off it, with the line buffers of `diffuse`. -/
theorem pushDiffusesAndAdvances : Obligations.PushDiffusesAndAdvances := by
  intro s smp hinv hready
  have hrun : s.seq = .run := hready.1
  obtain ⟨hx, hy⟩ := hinv.position hrun
  refine ⟨(s.acceptSample smp).answer none, exec_pixPush_ready smp (inReady_iff.2 hready), ?_⟩
  simp only [State.answer_cur, State.answer_nxt, State.answer_x, State.answer_y, State.answer_seq, acceptSample_cur,
    acceptSample_nxt, acceptSample_x, acceptSample_y, acceptSample_seq]
  by_cases hend : s.RowEnd
  · simp only [if_pos hend]
    refine ⟨fun i => ⟨diffuse_nxt_eq_nxtAfter hinv hrun smp i, lineGet_nil i⟩, rfl, toNat_ofNat_succ hy, ?_⟩
    rw [if_congr (and_iff_right hend) rfl rfl, hrun]
  · simp only [if_neg hend]
    refine ⟨fun i => ⟨diffuse_cur_eq_curAfter hinv hrun smp i, diffuse_nxt_eq_nxtAfter hinv hrun smp i⟩,
      toNat_ofNat_succ hx, trivial, ?_⟩
    rw [if_neg (fun hlast => hend hlast.1), hrun]

/-- Settles O43: the invariant bounds the buffers, these the corrected value, and that the error. -/
theorem errorRange : Obligations.ErrorRange := by
  intro s smp hinv hrun hdither
  have hcur : ∀ i, |(lineGet s.cur i).toInt| ≤ 252 := fun i => (hinv.curRange hrun i).trans (curBound_le _ i)
  have hnxt : ∀ i, |(lineGet s.nxt i).toInt| ≤ 141 := fun i => (hinv.nxtRange hrun i).trans (nxtBound_le _ i)
  have herror : |s.pushError smp| ≤ 255 := by
    rw [State.pushError, if_pos hdither]
    exact quantError_bounds smp hdither (hcur _)
  obtain ⟨hlow, hhigh⟩ := corrected_bounds smp (hcur s.x.toNat)
  rw [corrected_eq_correctedValue] at hlow hhigh
  rw [pushError_eq_passedError] at herror
  obtain ⟨hpos, hneg⟩ := abs_le.1 herror
  exact ⟨fun i => ⟨(hcur i).trans (by omega), (hnxt i).trans (by omega)⟩, hlow, hhigh, hpos, hneg⟩

/-! ### The share function (R102) -/

section Share

variable (e : Int) (w : Nat)

/-- A share has the sign of the error, or is 0 (R102). -/
theorem share_eq_sign_mul : share e w = e.sign * ((e.natAbs * w / 16 : Nat) : Int) := by
  rcases lt_trichotomy e 0 with he | rfl | he
  · rw [share, if_pos he, Int.sign_eq_neg_one_of_neg he]
  · simp
  · rw [share, if_neg (by omega), Int.sign_eq_one_of_pos he]

theorem share_natCast (n : Nat) : share n w = ((n * w / 16 : Nat) : Int) := by
  simp [share]

theorem share_neg : share (-e) w = -share e w := by
  simp [share_eq_sign_mul]

/-- A share is e · w / 16 truncated toward zero (R102): it is so for e ≥ 0, and both sides are odd in e. -/
theorem share_eq_tdiv : share e w = (e * w).tdiv 16 := by
  have hnonneg : ∀ n : Nat, share n w = ((n : Int) * w).tdiv 16 := fun n => by
    rw [share_natCast]
    norm_cast
  obtain ⟨n, rfl | rfl⟩ := Int.eq_nat_or_neg e
  · exact hnonneg n
  · rw [share_neg, hnonneg, Int.neg_mul, Int.neg_tdiv]

/-- A share is at most a sixteenth of |e| · w (R102). -/
theorem abs_share_mul_le : |share e w| * 16 ≤ |e| * w := by
  rw [abs_share, Int.abs_eq_natAbs]
  exact_mod_cast Nat.div_mul_le_self (e.natAbs * w) 16

/-- The weights add up to 16, so the four shares never amplify the error (R102, R103). -/
theorem abs_sum_shares_le : |share e 7 + share e 3 + share e 5 + share e 1| ≤ |e| := by
  have h7 := abs_share_mul_le e 7
  have h3 := abs_share_mul_le e 3
  have h5 := abs_share_mul_le e 5
  have h1 := abs_share_mul_le e 1
  calc |share e 7 + share e 3 + share e 5 + share e 1|
      ≤ |share e 7| + |share e 3| + |share e 5| + |share e 1| :=
        (abs_add_le _ _).trans (add_le_add_left (abs_add_three _ _ _) _)
    _ ≤ |e| := by
        push_cast at h7 h3 h5 h1
        omega

end Share

/-- Settles O25: a lemma for each clause, and R102's examples by evaluation. -/
theorem shareTruncatesTowardZero : Obligations.ShareTruncatesTowardZero := by
  intro e w
  exact ⟨share_eq_tdiv e w, share_eq_sign_mul e w, abs_share_mul_le e w, abs_sum_shares_le e, rfl, rfl, rfl⟩

/-! ### Flat frames (R108) -/

/-- A pixel whose neighbours pass on no error is classified by its sample alone. -/
theorem nextPixel_of_no_error {px : List (Bool × Int)} (h : ∀ k, errAt px k = 0) (w lt : Nat) (ld : Bool)
    (smp : Byte) : nextPixel w lt ld px smp = (decide ((smp.toNat : Int) < lt),
      if ld then quantError smp.toNat (decide ((smp.toNat : Int) < lt)) else 0) := by
  simp only [errAt] at h
  simp only [nextPixel, quantError, h, share_zero, ite_self, add_zero]

theorem errAt_replicate (n : Nat) (b : Bool) (k : Nat) : errAt (List.replicate n (b, 0)) k = 0 := by
  induction n with
  | zero => rfl
  | succ n ih =>
    rw [List.replicate_succ', errAt_append, ih]
    simp

/-- Equal samples are all of one class with no error when the first of them is. -/
theorem classify_replicate {w lt : Nat} {ld : Bool} {smp : Byte} {b : Bool}
    (h : ∀ px, (∀ k, errAt px k = 0) → nextPixel w lt ld px smp = (b, 0)) (n : Nat) :
    classify w lt ld (List.replicate n smp) = List.replicate n (b, 0) := by
  induction n with
  | zero => rfl
  | succ n ih => rw [List.replicate_succ', classify_append, ih, h _ (errAt_replicate n b), List.replicate_succ']

/-- Settles O52: a sample of 0 below LT and one of 255 not below it leave no error, by induction on the samples. -/
theorem flatFramesCarryNoError : Obligations.FlatFramesCarryNoError := by
  intro w lt n ld
  refine ⟨fun hlt => classify_replicate (fun px hpx => ?black) n,
    fun hlt => classify_replicate (fun px hpx => ?white) n⟩
  case black =>
    have hblack : ((0#8 : Byte).toNat : Int) < lt := by simp; omega
    rw [nextPixel_of_no_error hpx, decide_eq_true hblack]
    simp [quantError]
  case white =>
    have hwhite : ¬ ((255#8 : Byte).toNat : Int) < lt := by simp; omega
    rw [nextPixel_of_no_error hpx, decide_eq_false hwhite]
    simp [quantError]

end Sys2Proof.Machine

/-! PROOF. The packer on whole bitmaps (43_packer.md R109, R112, R114, R115). -/

namespace Sys2Proof.Machine

/-! ### Bytes of a row and padding bits (R109, R112, R115) -/

section RowBytes

variable {w j b : Nat}

theorem bytesPerLine_mul_eight (k : Nat) : bytesPerLine (8 * k) = k := by
  simp only [bytesPerLine]
  omega

theorem bytesPerLine_mul_eight_add_one (k : Nat) : bytesPerLine (8 * k + 1) = k + 1 := by
  simp only [bytesPerLine]
  omega

/-- BPL is w / 8 rounded up, and for every WIDTH it is in 1..8192. -/
theorem bytesPerLine_bounds (hw : 1 ≤ w) (hmax : w ≤ 65535) :
    1 ≤ bytesPerLine w ∧ bytesPerLine w ≤ 8192 ∧ w ≤ 8 * bytesPerLine w ∧ 8 * bytesPerLine w < w + 8 := by
  simp only [bytesPerLine]
  omega

/-- A column inside the width is a pixel's bit. -/
theorem getLsbD_packedByte_of_lt (black : Nat → Nat → Bool) (y : Nat) (hb : b < 8) (hin : 8 * j + b < w) :
    (packedByte w black y j).getLsbD (7 - b) = black (8 * j + b) y := by
  rw [getLsbD_packedByte _ _ _ _ hb, decide_eq_true hin, Bool.true_and]

/-- A column beyond the width is a padding bit, and white. -/
theorem getLsbD_packedByte_of_le (black : Nat → Nat → Bool) (y : Nat) (hb : b < 8) (hout : w ≤ 8 * j + b) :
    (packedByte w black y j).getLsbD (7 - b) = false := by
  rw [getLsbD_packedByte _ _ _ _ hb, decide_eq_false (Nat.not_lt.2 hout), Bool.false_and]

end RowBytes

/-- Settles O51: at 8k every column of the k bytes is inside the width; at 8k + 1 bit b of byte k is column
8k + (7 - b), which for b < 7 is beyond it. -/
theorem bytesPerLineBoundary : Obligations.BytesPerLineBoundary := by
  refine ⟨fun w => bytesPerLine_bounds, fun k black y => ⟨bytesPerLine_mul_eight k, fun j b hj hb => ?pixel⟩,
    fun k black y => ⟨bytesPerLine_mul_eight_add_one k, fun b hb => ?padding⟩⟩
  case pixel => exact getLsbD_packedByte_of_lt black y hb (by omega)
  case padding =>
    have hbit : 7 - (7 - b) = b := Nat.sub_sub_self (Nat.le_of_lt hb)
    have hzero := getLsbD_packedByte_of_le (w := 8 * k + 1) (j := k) (b := 7 - b) black y (by omega) (by omega)
    rwa [hbit] at hzero

/-! ### Packing and unpacking (R114) -/

section Unpack

variable {w h : Nat}

/-- Column 8j + b of row y is read from bit 7 - b of byte j of that row. -/
theorem unpackPixel_column (w : Nat) (bitmap : List Byte) (j y : Nat) {b : Nat} (hb : b < 8) :
    unpackPixel w bitmap (8 * j + b) y = (bitmap.getD (y * ((w + 7) / 8) + j) 0#8).getLsbD (7 - b) := by
  rw [unpackPixel, Nat.mul_add_div (by decide), Nat.div_eq_of_lt hb, Nat.add_zero j,
    Nat.mul_add_mod, Nat.mod_eq_of_lt hb]

/-- Bitmaps of BPL bytes in each row (R113) are equal when byte j of row y is the same in both. -/
theorem bitmap_ext {u v : List Byte} (hu : u.length = (w + 7) / 8 * h) (hv : v.length = (w + 7) / 8 * h)
    (hbyte : ∀ y j, y < h → j < (w + 7) / 8 →
      u.getD (y * ((w + 7) / 8) + j) 0#8 = v.getD (y * ((w + 7) / 8) + j) 0#8) : u = v := by
  refine List.ext_getElem (hu.trans hv.symm) fun k hku hkv => ?_
  have hk : k < (w + 7) / 8 * h := hu ▸ hku
  have hpos : 0 < (w + 7) / 8 := Nat.pos_of_mul_pos_right (Nat.zero_lt_of_lt hk)
  have hrow := hbyte (k / ((w + 7) / 8)) (k % ((w + 7) / 8)) (Nat.div_lt_of_lt_mul hk) (Nat.mod_lt k hpos)
  rwa [Nat.div_add_mod', List.getD_eq_getElem _ _ hku, List.getD_eq_getElem _ _ hkv] at hrow

theorem unpackPixel_packedBitmap (black : Nat → Nat → Bool) {x y : Nat} (hx : x < w) (hy : y < h) :
    unpackPixel w (packedBitmap w h black) x y = black x y := by
  have hb : x % 8 < 8 := Nat.mod_lt x (by decide)
  have hcol : 8 * (x / 8) + x % 8 = x := Nat.div_add_mod x 8
  rw [unpackPixel, getD_packedBitmap black hy (by omega), getLsbD_packedByte_of_lt black y hb (by rwa [hcol]), hcol]

/-- A byte whose padding bits are 0 is packed again from the pixels unpacked from it. -/
theorem packedByte_unpackPixel {bitmap : List Byte} {y j : Nat} (hpad : ∀ b, b < 8 → w ≤ 8 * j + b →
      (bitmap.getD (y * ((w + 7) / 8) + j) 0#8).getLsbD (7 - b) = false) :
    packedByte w (unpackPixel w bitmap) y j = bitmap.getD (y * ((w + 7) / 8) + j) 0#8 := by
  refine (eq_packedByte fun b hb => ?_).symm
  rw [unpackPixel_column w bitmap j y hb]
  by_cases hin : 8 * j + b < w
  · rw [decide_eq_true hin, Bool.true_and]
  · rw [decide_eq_false hin, Bool.false_and, hpad b hb (Nat.le_of_not_lt hin)]

theorem packedBitmap_unpackPixel {bitmap : List Byte} (hlen : bitmap.length = (w + 7) / 8 * h)
    (hpad : ∀ y j b, y < h → j < (w + 7) / 8 → b < 8 → w ≤ 8 * j + b →
      (bitmap.getD (y * ((w + 7) / 8) + j) 0#8).getLsbD (7 - b) = false) :
    packedBitmap w h (unpackPixel w bitmap) = bitmap :=
  bitmap_ext (length_packedBitmap w h _) hlen fun y j hy hj => by
    rw [getD_packedBitmap _ hy hj, packedByte_unpackPixel fun b hb => hpad y j b hy hj hb]

end Unpack

/-- Settles O50: a pixel of a packed image by its bit of its byte, and a clean bitmap byte by byte. -/
theorem packUnpackRoundTrip : Obligations.PackUnpackRoundTrip := fun _ _ =>
  ⟨fun black _ _ hx hy => unpackPixel_packedBitmap black hx hy,
    fun _ hlen hpad => packedBitmap_unpackPixel hlen hpad⟩

end Sys2Proof.Machine

/-! PROOF. The output pop, and the bytes that a frame has delivered and has waiting at any point of a run: the statements
of 44_frame_output.md. -/

namespace Sys2Proof.Machine

open Sys2Proof.Claims Sys2Proof.Laws

/-! ### The frame law (R118) -/

/-- Settles O45: `activeRun_done`, the relation `Sim` at the end of the run. -/
theorem deliveredBytesAreTheFrame : Obligations.DeliveredBytesAreTheFrame :=
  fun _ _ _ _ _ hstart hexec hrun hdone => activeRun_done hstart hexec hrun hdone

/-- The bytes emitted before a pixel of the frame are fewer than the bitmap's: the byte of that pixel is missing. -/
theorem length_emitted_lt {w h x y : Nat} (black : Nat → Nat → Bool) (hx : x < w) (hy : y < h) :
    (emitted w black y x).length < (packedBitmap w h black).length := by
  have hcol : x / 8 < (w + 7) / 8 := by omega
  calc (emitted w black y x).length
    _ = (w + 7) / 8 * y + x / 8 := by simp [emitted, length_packedBitmap]
    _ < (w + 7) / 8 * y + (w + 7) / 8 := Nat.add_lt_add_left hcol _
    _ = (w + 7) / 8 * (y + 1) := (Nat.mul_succ _ _).symm
    _ ≤ (w + 7) / 8 * h := Nat.mul_le_mul_left _ hy
    _ = (packedBitmap w h black).length := (length_packedBitmap w h black).symm

section Delivered

variable {s u : State} {samples l sent : List Byte}
  (h : Sim s (classify s.widthW.toNat s.thresholdT.toNat s.ctrlDither samples) l sent u)

include h

/-- The position of a running frame is a pixel of the frame that START latched (R29). -/
theorem Sim.position (hs : u.seq = .run) : u.x.toNat < s.widthW.toNat ∧ u.y.toNat < s.heightH.toNat := by
  rw [← h.lw, ← h.lh]
  exact h.inv.position hs

/-- Outside RUN every byte of the frame has been emitted. -/
theorem Sim.delivered_append_outFifo_eq (hs : u.seq ≠ .run) : sent ++ u.outFifo = frameFor s samples :=
  (h.outAll hs).trans (frameFor_eq s samples).symm

/-- In RUN what has been emitted is the header and the bitmap's bytes up to the position. -/
theorem Sim.delivered_append_outFifo_prefix : sent ++ u.outFifo <+: frameFor s samples := by
  by_cases hs : u.seq = .run
  · obtain ⟨hx, hy⟩ := h.position hs
    rw [h.out hs, frameFor_eq, List.prefix_append_right_inj]
    exact emitted_prefix _ hx hy
  · rw [h.delivered_append_outFifo_eq hs]

/-- While the frame is active a byte of it is not delivered: in RUN one is not emitted, in DRAIN one waits in OF. -/
theorem Sim.length_delivered_lt (ha : Active u) : sent.length < (frameFor s samples).length := by
  rcases ha with hs | hs
  · obtain ⟨hx, hy⟩ := h.position hs
    have hout := congrArg List.length (h.out hs)
    have hlt := length_emitted_lt (blackAt s.widthW.toNat
      (classify s.widthW.toNat s.thresholdT.toNat s.ctrlDither samples)) hx hy
    rw [frameFor_eq]
    simp only [List.length_append] at hout ⊢
    omega
  · have hwaiting : 0 < u.outFifo.length := List.length_pos_of_ne_nil (h.inv.drained hs)
    rw [← h.delivered_append_outFifo_eq (by simp [hs]), List.length_append]
    omega

end Delivered

/-- Settles O46: the relation `Sim` to the completed samples holds wherever the frame is still active. -/
theorem deliveredBytesArePrefix : Obligations.DeliveredBytesArePrefix := by
  intro s t u is bs more hstart hexec hrun hactive _
  rw [exec_cmdStart_accepted hstart] at hexec
  cases hexec
  have hnotAborted : u.seq ≠ .aborted := by rcases hactive with hs | hs <;> simp [hs]
  have hsim := (sim_start hstart _).activeRun hrun hnotAborted (classify_prefix _ _ _ (pushedSamples is) more)
  exact ⟨hsim.delivered_append_outFifo_prefix, hsim.length_delivered_lt hactive⟩

/-! ### The output pop (R117) -/

/-- Settles O26: `popTo` is the pop's effect, and the byte is returned zero-extended. -/
theorem popDeliversHead : Obligations.PopDeliversHead := by
  refine ⟨RoundTrip.outPop trivial, fun s b rest hfifo => ?_⟩
  rw [exec_outPop_cons hfifo, BitVec.ofNat_toNat]
  rfl

/-- Settles O27: the meaning of a pop branches on OF (R124). -/
theorem popWaitsOnEmptyFifo : Obligations.PopWaitsOnEmptyFifo := by
  intro s hfifo
  rw [exec, execOutPop, hfifo]

end Sys2Proof.Machine

/-! PROOF. The interrupt level and the ERR bits that a transaction sets: the statements of 60_exceptions.md. -/

namespace Sys2Proof.Machine

open Sys2Proof.Claims

/-! ### The level of IRQ (R125) -/

section Irq

variable {s : State}

/-- With both enables off IRQ is low, whatever STATE and ERR. -/
theorem irq_eq_false_of_disabled (hdone : s.doneEn = false) (herr : s.errEn = false) : s.irq = false := by
  rw [State.irq, hdone, herr, Bool.false_and, Bool.false_and, Bool.or_false]

/-- With STATE not DONE only the error source is left. -/
theorem irq_iff_of_seq_ne_done (h : s.seq ≠ .done) : s.irq = true ↔ s.errEn = true ∧ s.err ≠ 0#5 := by
  rw [irq_iff, or_iff_right fun hdone => h hdone.2]

theorem afterClear_ne_done (q : SeqState) : q.afterClear ≠ .done := by
  cases q <;> decide

/-- CLEAR takes both sources away: no error is left, and STATE is not DONE (R93). -/
theorem irq_clear (s : State) : s.clear.irq = false := by
  rw [← Bool.not_eq_true, irq_iff_of_seq_ne_done (s := s.clear) (afterClear_ne_done s.seq)]
  exact fun h => h.2 rfl

end Irq

/-- Settles O29: `irq_iff` is the level; CLEAR takes both sources away, disabled enables and reset mask both, and a
performed START leaves DONE for RUN. -/
theorem irqLevel : Obligations.IrqLevel := by
  refine ⟨fun s => irq_iff, fun s => ⟨_, rfl, irq_clear s⟩, fun s => ⟨_, rfl, irq_eq_false_of_disabled rfl rfl⟩,
    fun s hdone hsize => ?start, fun p => irq_eq_false_of_disabled rfl rfl⟩
  case start =>
    have hidle : ¬ Active s := by simp [Active, hdone]
    have haccepted : s.startAccepted = true := startAccepted_iff_not_active_not_badSize.2 ⟨hidle, hsize⟩
    exact ⟨s.startFrame.answer none, exec_cmdStart_accepted haccepted,
      irq_iff_of_seq_ne_done (s := s.startFrame.answer none) (by simp)⟩

/-! ### What a transaction sets in ERR (R120 to R123) -/

/-- The bits of ERR at t are those it holds at s and those of the causes in p. -/
def ErrAfter (s t : State) (p : Nat → Prop) : Prop :=
  ∀ k, k < 5 → (t.err.getLsbD k = true ↔ s.err.getLsbD k = true ∨ p k)

section ErrAfter

variable {s t u : State} {p : Nat → Prop} {i : Instr}

theorem ErrAfter.of_err_eq (h : t.err = s.err) (hp : ∀ k, ¬ p k) : ErrAfter s t p := by
  intro k _
  rw [h, or_iff_left (hp k)]

theorem ErrAfter.of_raise {e : ErrCause} (h : t.err = (s.raise e).err) (hp : ∀ k, p k ↔ k = e.code) :
    ErrAfter s t p := by
  intro k hk
  rw [h, getLsbD_raise s e hk, hp k]

/-- A write to a read/write register raises BADWRITE exactly when its value is above the legal range (R77). -/
theorem errAfter_writeIf {v : Word} {n : Nat} {legal : Bool} (hlegal : legal = decide (v.toNat ≤ n))
    (hu : u.err = s.err) : ErrAfter s (s.writeIf legal u) fun k => k = 1 ∧ n < v.toNat := by
  by_cases hv : v.toNat ≤ n
  · rw [hlegal, decide_eq_true hv]
    exact .of_err_eq hu fun k hk => Nat.not_lt.2 hv hk.2
  · rw [hlegal, decide_eq_false hv]
    exact .of_raise (e := .badWrite) rfl fun k => and_iff_left (Nat.lt_of_not_le hv)

/-- A START raises BUSY in an active frame, PARAM on a bad size without one, and nothing when it is performed (R90). -/
theorem errAfter_cmdStart (h : exec .cmdStart s = .next t) : ErrAfter s t (raisesCause .cmdStart s) := by
  by_cases hactive : Active s
  · rw [exec_cmdStart_of_active hactive] at h
    cases h
    exact .of_raise (e := .busy) rfl fun k => by simp [raisesCause, hactive, ErrCause.code]
  · by_cases hsize : BadSize s
    · rw [exec_cmdStart_of_badSize hactive hsize] at h
      cases h
      exact .of_raise (e := .param) rfl fun k => by simp [raisesCause, hactive, hsize, ErrCause.code]
    · rw [exec_cmdStart_accepted (startAccepted_iff_not_active_not_badSize.2 ⟨hactive, hsize⟩)] at h
      cases h
      exact .of_err_eq rfl fun k => by simp [raisesCause, hactive, hsize]

/-- ABORT leaves ERR (R92). -/
theorem err_cmdAbort (h : exec .cmdAbort s = .next t) : t.err = s.err := by
  by_cases hactive : Active s
  · rw [exec_cmdAbort_of_active hactive] at h
    cases h
    rfl
  · rw [exec_cmdAbort_of_not_active hactive] at h
    cases h
    rfl

/-- A push or a pop that is taken leaves ERR: every cause is one of the register port (R121). -/
theorem err_of_not_onRegisterPort (hi : ¬ Instr.OnRegisterPort i) (h : exec i s = .next t) : t.err = s.err := by
  cases exec_next_cases h with
  | quiet _ hport | raised _ hport | written _ hport => exact absurd hport hi
  | started | aborted | cleared => exact absurd ⟨by simp, by simp⟩ hi
  | pushed smp => exact State.acceptSample_err s smp
  | popped => rfl

end ErrAfter

/-- Settles O30: by the transaction, a raise of its one cause, a write by the range of its legal values, or no change of
ERR. -/
theorem errorCauses : Obligations.ErrorCauses := by
  intro i s t hexec hclear
  change ErrAfter s t (raisesCause i s)
  cases i with
  | cmdClear => exact absurd rfl hclear
  | rdCtrl | rdWidth | rdHeight | rdThreshold | rdPrefix | rdIrqEn | rdCmd | rdStatus | rdErr | rdPos | rdCaps
  | wrPrefix | cmdNop =>
    cases hexec
    exact .of_err_eq rfl fun _ => id
  | cmdAbort => exact .of_err_eq (err_cmdAbort hexec) fun _ => id
  | pixPush smp => exact .of_err_eq (err_of_not_onRegisterPort (fun h => h.2 smp rfl) hexec) fun _ => id
  | outPop => exact .of_err_eq (err_of_not_onRegisterPort (fun h => h.1 rfl) hexec) fun _ => id
  | cmdReserved =>
    cases hexec
    exact .of_raise (e := .badCmd) rfl fun _ => .rfl
  | wrStatus | wrErr | wrPos | wrCaps =>
    cases hexec
    exact .of_raise (e := .badWrite) rfl fun _ => .rfl
  | rdUnmapped | wrUnmapped =>
    cases hexec
    exact .of_raise (e := .badAddr) rfl fun _ => .rfl
  | wrCtrl v =>
    cases hexec
    exact errAfter_writeIf (ctrlLegal_eq v) rfl
  | wrWidth v | wrHeight v =>
    cases hexec
    exact errAfter_writeIf (halfLegal_eq v) rfl
  | wrThreshold v =>
    cases hexec
    exact errAfter_writeIf (byteLegal_eq v) rfl
  | wrIrqEn v =>
    cases hexec
    exact errAfter_writeIf (irqEnLegal_eq v) rfl
  | cmdStart => exact errAfter_cmdStart hexec

/-- A transaction that sets a bit of ERR did nothing but raise that bit's cause and answer (R120). -/
theorem eq_raise_of_newlySet {i : Instr} {s t : State} {k : Nat} (h : exec i s = .next t)
    (hset : t.err.getLsbD k = true) (hclear : s.err.getLsbD k = false) :
    ∃ e r, t = (s.raise e).answer r ∧ k = e.code := by
  have hchanged : t.err ≠ s.err := fun heq => by simp [heq, hclear] at hset
  cases exec_next_cases h with
  | raised _ _ e r =>
    have hnew := (getLsbD_raise s e (BitVec.lt_of_getLsbD hset)).1 hset
    exact ⟨e, r, rfl, hnew.resolve_left (Bool.eq_false_iff.1 hclear)⟩
  | cleared => simp at hset
  | pushed smp => exact absurd (State.acceptSample_err s smp) hchanged
  | quiet | written | started | aborted | popped => exact absurd rfl hchanged

/-- Settles O31: the bit newly set is the one bit of the raised cause. -/
theorem oneErrorBitPerTransaction : Obligations.OneErrorBitPerTransaction := by
  intro i s t hexec j k hj hj₀ hk hk₀
  obtain ⟨e, r, rfl, rfl⟩ := eq_raise_of_newlySet hexec hj hj₀
  have hnew := (getLsbD_raise s e (BitVec.lt_of_getLsbD hk)).1 hk
  exact (hnew.resolve_left (Bool.eq_false_iff.1 hk₀)).symm

/-- Settles O32: a raise writes ERR alone, and the answer the return value. -/
theorem errorsArePrecise : Obligations.ErrorsArePrecise := by
  intro i s t hexec k hset hclear
  obtain ⟨e, r, rfl, -⟩ := eq_raise_of_newlySet hexec hset hclear
  rfl

end Sys2Proof.Machine

/-! PROOF. Reset, a START refused outside a frame, and that a frame can always go on and complete: the statements of
70_reset_and_hazards.md. -/

namespace Sys2Proof.Machine

open Sys2Proof.Claims

/-! ### A running or draining frame goes on (R140) -/

section Progress

variable {s : State}

/-- A pop of a running frame leaves it running, whatever it leaves in OF (44_frame_output.md R117). -/
theorem popTo_seq_of_run (h : s.seq = .run) (rest : List Byte) : (s.popTo rest).seq = .run := by
  simp [SeqState.afterPop, h]

/-- A pop of a draining frame completes it exactly when it empties OF (44_frame_output.md R117). -/
theorem popTo_seq_of_drain (h : s.seq = .drain) (rest : List Byte) :
    (s.popTo rest).seq = if rest = [] then .done else .drain := by
  simp [SeqState.afterPop, h]

/-- A running frame takes every push, or OF is full, and then it holds a byte to pop (OFIFO_DEPTH is at least 8, R8). -/
theorem State.Inv.inReady_or_full (h : s.Inv) (hrun : s.seq = .run) :
    s.inReady = true ∨ s.outFifo.length = s.params.ofifoDepth ∧ ∃ b rest, s.outFifo = b :: rest := by
  rcases h.fifoFits.lt_or_eq with hspace | hfull
  · exact .inl (inReady_iff.2 ⟨hrun, hspace⟩)
  · have hdepth := s.params.ofifoDepth_ge
    exact .inr ⟨hfull, List.exists_cons_of_length_pos (by omega)⟩

end Progress

/-- Settles O44: a full OF has a byte to pop in RUN, and the invariant gives one in DRAIN. -/
theorem activeFrameCanProgress : Obligations.ActiveFrameCanProgress := by
  refine fun s hinv => ⟨fun hrun => ?run, fun hdrain => ?drain⟩
  case run =>
    rcases hinv.inReady_or_full hrun with hready | ⟨hfull, b, rest, hfifo⟩
    · exact .inl fun smp => ⟨_, exec_pixPush_ready smp hready⟩
    · exact .inr ⟨hfull, _, exec_outPop_cons hfifo, popTo_seq_of_run hrun rest⟩
  case drain =>
    obtain ⟨b, rest, hfifo⟩ := List.exists_cons_of_ne_nil (hinv.drained hdrain)
    refine ⟨_, exec_outPop_cons hfifo, by simp [hfifo], ?_⟩
    rw [State.answer_seq, popTo_seq_of_drain hdrain]
    simp

/-! ### Every frame completes (R136, R140) -/

/-- Some run of taken transactions of an active frame leads from u to v and pushes exactly these samples. -/
def RunsTo (u : State) (samples : List Byte) (v : State) : Prop :=
  ∃ is bs, activeRun is u = some (bs, v) ∧ pushedSamples is = samples

namespace RunsTo

variable {u v w : State} {l m : List Byte}

theorem refl (u : State) : RunsTo u [] u := ⟨[], [], rfl, rfl⟩

theorem trans (huv : RunsTo u l v) (hvw : RunsTo v m w) : RunsTo u (l ++ m) w := by
  obtain ⟨is, bs, his, rfl⟩ := huv
  obtain ⟨js, cs, hjs, rfl⟩ := hvw
  exact ⟨is ++ js, bs ++ cs, by simp [activeRun_append his, hjs], List.filterMap_append⟩

/-- A taken push. -/
theorem push (h : u.inReady = true) (smp : Byte) : RunsTo u [smp] ((u.acceptSample smp).answer none) :=
  have ha : u.frameActive = true := frameActive_iff.2 (.inl (inReady_iff.1 h).1)
  ⟨[.pixPush smp], _, activeRun_singleton ha (exec_pixPush_ready smp h), rfl⟩

/-- A taken pop of an active frame. -/
theorem pop (ha : u.frameActive = true) {b : Byte} {rest : List Byte} (h : u.outFifo = b :: rest) :
    RunsTo u [] ((u.popTo rest).answer (some (b.setWidth 32))) :=
  ⟨[.outPop], _, activeRun_singleton ha (exec_outPop_cons h), rfl⟩

/-- Pops alone take a draining frame to DONE, by induction on the bytes that wait in OF. -/
theorem exists_done_of_drain {fifo : List Byte} :
    ∀ {u : State}, u.seq = .drain → u.outFifo = fifo → fifo ≠ [] → ∃ v, RunsTo u [] v ∧ v.seq = .done := by
  induction fifo with
  | nil => exact fun _ _ hne => absurd rfl hne
  | cons b rest ih =>
    intro u hdrain hfifo _
    have hpop := RunsTo.pop (frameActive_iff.2 (.inr hdrain)) hfifo
    have hseq := popTo_seq_of_drain hdrain rest
    by_cases hrest : rest = []
    · exact ⟨_, hpop, hseq.trans (if_pos hrest)⟩
    · obtain ⟨v, hv, hdone⟩ := ih (u := (u.popTo rest).answer (some (b.setWidth 32)))
        (hseq.trans (if_neg hrest)) rfl hrest
      exact ⟨v, hpop.trans hv, hdone⟩

end RunsTo

section Completion

variable {s u : State} {full : List (Bool × Int)} {l sent : List Byte} (h : Sim s full l sent u)

include h

/-- A frame is running exactly as long as samples of it are missing. -/
theorem Sim.run_iff_length_lt : u.seq = .run ↔ l.length < s.widthW.toNat * s.heightH.toNat := by
  refine ⟨fun hrun => ?_, fun hlt => ?_⟩
  · obtain ⟨hx, hy⟩ := h.inv.position hrun
    rw [h.lw] at hx
    rw [h.lh] at hy
    calc l.length
      _ = u.y.toNat * s.widthW.toNat + u.x.toNat := h.count hrun
      _ < u.y.toNat * s.widthW.toNat + s.widthW.toNat := Nat.add_lt_add_left hx _
      _ = (u.y.toNat + 1) * s.widthW.toNat := (Nat.succ_mul _ _).symm
      _ ≤ s.heightH.toNat * s.widthW.toNat := Nat.mul_le_mul_right _ hy
      _ = s.widthW.toNat * s.heightH.toNat := Nat.mul_comm _ _
  · by_contra hnot
    exact hlt.ne (h.countAll hnot)

/-- A running frame takes the next sample, at once or after the pop that makes room for it. -/
theorem Sim.exists_push (hrun : u.seq = .run) {smp : Byte}
    (hfull : classify s.widthW.toNat s.thresholdT.toNat s.ctrlDither (l ++ [smp]) <+: full) :
    ∃ v sent', RunsTo u [smp] v ∧ Sim s full (l ++ [smp]) sent' v := by
  rcases h.inv.inReady_or_full hrun with hready | ⟨hdepth, b, rest, hfifo⟩
  · exact ⟨_, _, .push hready smp, h.push hready smp hfull⟩
  · have hpopped := h.pop hfifo (some (b.setWidth 32))
    have hready : ((u.popTo rest).answer (some (b.setWidth 32))).inReady = true := by
      rw [hfifo, List.length_cons] at hdepth
      exact inReady_iff.2 ⟨popTo_seq_of_run hrun rest, Nat.lt_of_succ_le hdepth.le⟩
    exact ⟨_, _, (RunsTo.pop (frameActive_iff.2 (.inl hrun)) hfifo).trans (.push hready smp),
      hpopped.push hready smp hfull⟩

/-- A frame with all its samples is DONE, or pops take it there. -/
theorem Sim.exists_done_of_not_run (hrun : u.seq ≠ .run) : ∃ v, RunsTo u [] v ∧ v.seq = .done := by
  rcases h.phase with hs | hdrain | hdone
  · exact absurd hs hrun
  · exact RunsTo.exists_done_of_drain hdrain rfl (h.inv.drained hdrain)
  · exact ⟨u, .refl u, hdone⟩

end Completion

/-- A frame that has taken the samples l completes with the missing ones, by induction on these. -/
theorem Sim.exists_completion {s : State} {samples missing : List Byte}
    (hlen : samples.length = s.widthW.toNat * s.heightH.toNat) : ∀ {u : State} {l sent : List Byte},
    Sim s (classify s.widthW.toNat s.thresholdT.toNat s.ctrlDither samples) l sent u → l ++ missing = samples →
    ∃ v, RunsTo u missing v ∧ v.seq = .done := by
  induction missing with
  | nil =>
    intro u l sent h hsamples
    rw [List.append_nil] at hsamples
    exact h.exists_done_of_not_run fun hrun => (h.run_iff_length_lt.1 hrun).ne (hsamples ▸ hlen)
  | cons smp missing ih =>
    intro u l sent h hsamples
    have hrun : u.seq = .run := h.run_iff_length_lt.2 (by rw [← hlen, ← hsamples]; simp)
    have hsplit : (l ++ [smp]) ++ missing = samples := by rw [List.append_assoc, ← hsamples]; rfl
    obtain ⟨v, sent', hpush, hsim⟩ := h.exists_push hrun (hsplit ▸ classify_prefix _ _ _ (l ++ [smp]) missing)
    obtain ⟨w, hrest, hdone⟩ := ih hsim hsplit
    exact ⟨w, hpush.trans hrest, hdone⟩

/-- Settles O47: START relates the machine to the reference, and from there the frame completes with all the samples. -/
theorem everyFrameCanComplete : Obligations.EveryFrameCanComplete := by
  intro s samples hstart hlen
  obtain ⟨u, ⟨is, bs, hrun, hpushed⟩, hdone⟩ :=
    Sim.exists_completion hlen (sim_start hstart _) (List.nil_append samples)
  exact ⟨_, u, is, bs, exec_cmdStart_accepted hstart, hrun, hdone, hpushed⟩

/-! ### Reset (R133) -/

/-- Settles O8: the pulse leaves `applyReset`, whose items are R133's, and with both enables 0 IRQ is low. -/
theorem resetPulseRestoresState : Obligations.ResetPulseRestoresState := by
  intro s rest hevents
  exact ⟨_, step_of_reset hevents, rfl, rfl, rfl, rfl, rfl, rfl, rfl, rfl, rfl, rfl, rfl, rfl,
    irq_eq_false_of_disabled rfl rfl, rfl, rfl⟩

/-- No flag of STATUS is up after reset, whatever the parameters, and IDLE has code 0 (R23, R27). -/
theorem statusWord_resetWith (p : Params) : (State.resetWith p).statusWord = 0#32 := by
  have hirq : (State.resetWith p).irq = false := irq_eq_false_of_disabled rfl rfl
  have hready : (State.resetWith p).inReady = false := rfl
  have hvalid : (State.resetWith p).outValid = false := rfl
  rw [State.statusWord, hirq, hready, hvalid]
  simp [State.resetWith, SeqState.code, bit]

theorem posWord_resetWith (p : Params) : (State.resetWith p).posWord = 0#32 := by
  simp [State.posWord, State.resetWith]

/-- Settles O9: a register's reset value is what it reads; IRQ_EN, STATUS, POS and CAPS read words put together from the
state, by the numbers these are. -/
theorem resetRegistersRead : Obligations.ResetRegistersRead := by
  refine ⟨rfl, fun p => ⟨rfl, rfl, rfl, rfl, rfl, ?irqEn, rfl, ?status, rfl, ?pos, ?caps⟩⟩
  case irqEn => exact exec_read_of_eq rfl (irqEnWord_eq (State.resetWith p))
  case status => exact exec_read_of_eq rfl (statusWord_resetWith p)
  case pos => exact exec_read_of_eq rfl (posWord_resetWith p)
  case caps => exact exec_read_of_eq rfl (capsWord_eq (State.resetWith p))

/-- Settles O41: `inv_resetWith`, also for the implementation's own parameters. -/
theorem invariantHoldsAtReset : Obligations.InvariantHoldsAtReset :=
  ⟨inv_resetWith Config.params, inv_resetWith⟩

/-! ### A push after a refused START (R139) -/

/-- Settles O28: the refused START only raises PARAM and answers, so STATE is still not RUN. -/
theorem pushWaitsAfterRefusedStart : Obligations.PushWaitsAfterRefusedStart := by
  intro s smp hactive hsize
  have hnotReady : ¬ Ready ((s.raise .param).answer none) := fun hready => hactive (.inl hready.1)
  exact ⟨_, exec_cmdStart_of_badSize hactive hsize, exec_pixPush_of_not_ready smp hnotReady⟩

end Sys2Proof.Machine
